-- ==== Sys2Proof/Word.lean ====
section
/-! DEFINITION. The two widths of the block (00_scope.md R11): a byte of 8 bits and a word of 32 bits.
Bit 0 is the least significant bit and no value is signed (R13). -/

namespace Sys2Proof

/-- A byte: the unit of IBUF and OBUF (R11, R38). -/
abbrev Byte := BitVec 8

/-- A 32-bit word: every host register, the LENGTH, TYPE and CRC fields, a command word (R11, R53). -/
abbrev Word := BitVec 32

end Sys2Proof
end

