-- ==== Sys2Proof/Syntax.lean ====
section
/-! DEFINITION. The instructions of the block: the nine command words of 30_encoding.md R54, one constructor per row of
spec/opcode_table.json. The only immediate is CRC_BYTE's imm8 (R57). -/

namespace Sys2Proof

/-- A legal command (R54). Every other operand is a register's value when the engine performs it (R57). -/
inductive Instr where
  /-- CRC_INIT, op 0x01 (R75). -/
  | crcInit
  /-- CRC_BYTE, op 0x02, with the byte to fold (R76). -/
  | crcByte (imm8 : Byte)
  /-- CRC_BUF, op 0x03 (R77). -/
  | crcBuf
  /-- TYPE_CHECK, op 0x10 (R70). -/
  | typeCheck
  /-- SIG_CHECK, op 0x20 (R96). -/
  | sigCheck
  /-- CHUNK_DECODE, op 0x21 (R81). -/
  | chunkDecode
  /-- CHUNK_NEW, op 0x30 (R89). -/
  | chunkNew
  /-- CHUNK_ENCODE, op 0x31 (R91). -/
  | chunkEncode
  /-- SIG_EMIT, op 0x32 (R98). -/
  | sigEmit
  deriving DecidableEq, Repr

end Sys2Proof
end

