-- ==== Sys2Proof/Config.lean ====
section
/-! DEFINITION. What an implementation fixes (00_scope.md R12) and the free values of the spec (70_reset_and_hazards.md R136).
The parameters are a field of State, so a statement about every state is a statement about every parameter. -/

namespace Sys2Proof

/-- The named parameters of R12. CMD_LATENCY is not a number here: no rule reads it, and what it can change
(which host accesses land before the engine's step) is the list `State.turns` (log entries 5 and 17). -/
structure Config where
  /-- IBUF_SIZE: bytes in the input buffer, 0 to 2^32. -/
  ibufSize : Nat
  /-- OBUF_SIZE: bytes in the output buffer, 0 to 2^32. -/
  obufSize : Nat
  /-- REG_BASE: where the platform maps the register window. No rule reads it (R12, R47). -/
  regBase : Nat
  /-- IBUF_BASE. No rule reads it (R12, R47). -/
  ibufBase : Nat
  /-- OBUF_BASE. No rule reads it (R12, R47). -/
  obufBase : Nat
  deriving DecidableEq, Repr

/-- DESIGN CHOICE (log entry 2): the parameters `State.reset` carries, the sizes the spec's own programs P2 and P3 run with. -/
def Config.atReset : Config := { ibufSize := 128, obufSize := 128, regBase := 0, ibufBase := 0, obufBase := 0 }

/-- The free value of the n-th unspecified register read (R136: 'a fresh draw (any 32-bit value or any byte)'). It has no body
on purpose, so nothing can be proved of its value (log entry 4). -/
opaque Config.drawWord : Nat → Word

/-- The free value of the n-th unspecified OBUF read (R136, log entry 4). -/
opaque Config.drawByte : Nat → Byte

end Sys2Proof
end

