-- ==== Sys2Proof/Machine/Registers.lean ====
section
/-! DEFINITION. The register window: the thirteen host registers by name, their offsets and access kinds (10_state.md R19). -/

namespace Sys2Proof.Machine

/-- The thirteen host registers of R19. -/
inductive RegName where
  | cmd | status | errcode | tstat | inLen | inPtr | outPtr
  | chkLen | chkType | chkDofs | chkCrc | crcState | crcValue
  deriving DecidableEq, Repr

/-- The two byte buffers the host reaches (R38). -/
inductive Buffer where
  /-- IBUF, the input buffer. -/
  | ibuf
  /-- OBUF, the output buffer. -/
  | obuf
  deriving DecidableEq, Repr

/-- The offset of a register in the window (R19). -/
def RegName.offset : RegName → Nat
  | .cmd => 0x00
  | .status => 0x04
  | .errcode => 0x08
  | .tstat => 0x0C
  | .inLen => 0x10
  | .inPtr => 0x14
  | .outPtr => 0x18
  | .chkLen => 0x1C
  | .chkType => 0x20
  | .chkDofs => 0x24
  | .chkCrc => 0x28
  | .crcState => 0x2C
  | .crcValue => 0x30

/-- The thirteen registers in offset order (R19). -/
def allRegs : List RegName :=
  [.cmd, .status, .errcode, .tstat, .inLen, .inPtr, .outPtr, .chkLen, .chkType, .chkDofs, .chkCrc, .crcState, .crcValue]

/-- The register at an offset of the window. None at the reserved offsets 0x34 to 0x3F (R21). -/
def regAt (off : Nat) : Option RegName := allRegs.find? fun r => decide (r.offset = off)

/-- The size of the register window in bytes (R21, R38). -/
def windowSize : Nat := 0x40

/-- How the host may access a register (the 'access' column of R19). -/
inductive Access where
  /-- Write-only, reads 0: CMD. -/
  | wo
  /-- Read-only with bit 3 write-1-to-clear: STATUS. -/
  | status
  /-- Read-only, a host write is ignored. -/
  | ro
  /-- Write-any-read-same. -/
  | rw
  deriving DecidableEq, Repr

/-- The 'access' column of R19. -/
def RegName.access : RegName → Access
  | .cmd => .wo
  | .status => .status
  | .errcode => .ro
  | .tstat => .ro
  | .inLen => .rw
  | .inPtr => .rw
  | .outPtr => .rw
  | .chkLen => .rw
  | .chkType => .rw
  | .chkDofs => .rw
  | .chkCrc => .rw
  | .crcState => .rw
  | .crcValue => .ro

end Sys2Proof.Machine
end

