-- ==== Sys2Proof/Machine/HostSyntax.lean ====
section
/-! DEFINITION. The host program notation of 30_encoding.md R62, as the syntax the host agent of State runs.
`WR`, `RD`, `WRB`, `RDB`, `WAIT`, labels, `if ... goto`, `goto` and `fail` are R62's own forms; a command mnemonic is a WR to CMD.
The statements `set`, `append`, `nextDesc`, `clearList` and `accept` write out what R99 and R101 say in words about the host's own
variables and list (log entry 7). -/

namespace Sys2Proof.Machine

/-- A host expression over the host's variables. Host variables are unbounded (R62), so values are naturals. -/
inductive HExpr where
  | lit (n : Nat)
  | var (x : Nat)
  | add (a b : HExpr)
  | sub (a b : HExpr)
  /-- Bit i of a value, `st[2]` in R99. -/
  | bit (a : HExpr) (i : Nat)
  deriving DecidableEq, Repr

/-- A host condition. -/
inductive HCond where
  | eq (a b : HExpr)
  | ne (a b : HExpr)
  | lt (a b : HExpr)
  deriving DecidableEq, Repr

/-- One statement of a host program. Offsets and widths of register accesses are written out, so that every access a host
could attempt is a statement, the bad ones too (R20). -/
inductive HStmt where
  /-- A register write of `width` bits at byte offset `off` (`WR NAME, v` is the 32-bit one at NAME's offset). -/
  | wr (off width : Nat) (v : HExpr)
  /-- A register read into the host variable x (`RD NAME -> x`). -/
  | rd (off width : Nat) (x : Nat)
  /-- `WRB buf[a], v`. -/
  | wrb (buf : Buffer) (a v : HExpr)
  /-- `RDB buf[a] -> x`. -/
  | rdb (buf : Buffer) (a : HExpr) (x : Nat)
  /-- `WAIT`: read STATUS until bit 0 (BUSY) is 0. -/
  | wait
  /-- `label:`. -/
  | label (l : Nat)
  /-- `if <cond> goto label`. -/
  | ifGoto (c : HCond) (l : Nat)
  /-- `goto label`. -/
  | goto (l : Nat)
  /-- `fail`: ends the host program with the parse rejected. The expression is what an error exit reports (R63 `fail_e`). -/
  | fail (e : HExpr)
  /-- Ends the host program, accepting (R99 'accept the list'). -/
  | accept
  /-- A host variable takes a value. -/
  | set (x : Nat) (e : HExpr)
  /-- Append the descriptor held in four host variables to the host's list (R99). -/
  | append (l t o c : Nat)
  /-- Load descriptor number i of the host's list into four host variables, or go to a label when there is none (the 'for each
  descriptor' of R101). -/
  | nextDesc (i : HExpr) (l t o c : Nat) (done : Nat)
  /-- Discard the host's list (R99: 'On a CHECK failure the host must discard the whole list'). -/
  | clearList
  deriving DecidableEq, Repr

/-- One chunk as the host records it: what CHUNK_DECODE leaves in CHK_LEN, CHK_TYPE, CHK_DOFS and CHK_CRC (42_chunk_frame.md R94).
Host values are naturals. -/
structure Descriptor where
  len : Nat
  type : Nat
  dofs : Nat
  crc : Nat
  deriving DecidableEq, Repr

/-- Where the host program stands. -/
inductive HostStatus where
  /-- Running, or stopped at its last statement when the position is past the program's end. -/
  | running
  /-- Stopped by accepting. -/
  | accepted
  /-- Stopped by `fail`, reporting a code. -/
  | failed (report : Nat)
  deriving DecidableEq, Repr

/-- The host agent (10_state.md R18): its program, its position, its variables, its list of descriptors, its status. -/
structure HostAgent where
  prog : List HStmt
  pc : Nat
  /-- Set variables as (number, value), numbers rising, no entry of value 0: an unlisted variable reads 0 (log entry 7). -/
  vars : List (Nat × Nat)
  list : List Descriptor
  status : HostStatus
  deriving DecidableEq, Repr

/-- The host with no program loaded (log entry 6). -/
def HostAgent.init : HostAgent := { prog := [], pc := 0, vars := [], list := [], status := .running }

end Sys2Proof.Machine
end

