-- ==== Sys2Proof/WellFormed.lean ====
section
/-! DEFINITION. Well-formedness checks: of a command's operands, of a 32-bit word as a command word (30_encoding.md R53), of
the parameters (00_scope.md R12) and of a host program (R62). Each is a Bool, so that a smoke test can show a refusal. -/

namespace Sys2Proof

/-- Is every operand of the command legal? The one operand is CRC_BYTE's byte and every byte is legal (R53, R57), so the type
already says all there is: no term is refused. -/
def Instr.wf : Instr → Bool
  | .crcInit => true
  | .crcByte _ => true
  | .crcBuf => true
  | .typeCheck => true
  | .sigCheck => true
  | .chunkDecode => true
  | .chunkNew => true
  | .chunkEncode => true
  | .sigEmit => true

/-- The nine opcodes of R54. -/
def assignedOpcodes : List Nat := [0x01, 0x02, 0x03, 0x10, 0x20, 0x21, 0x30, 0x31, 0x32]

/-- Is the word a legal command word? Written from the field table of R53 over the word's number, apart from the decoder: `rsv`
is 0, `op` is assigned, `imm8` is 0 outside CRC_BYTE. -/
def commandWordOk (w : Word) : Bool :=
  decide (w.toNat / 65536 = 0) && assignedOpcodes.contains (w.toNat % 256)
    && (decide (w.toNat % 256 = 0x02) || decide (w.toNat / 256 % 256 = 0))

/-- Are the parameters in their legal ranges (R12)? -/
def Config.wf (c : Config) : Bool := decide (c.ibufSize ≤ 2 ^ 32) && decide (c.obufSize ≤ 2 ^ 32)

namespace Machine

/-- The labels a program declares, in order. -/
def labelsOf : List HStmt → List Nat
  | [] => []
  | .label l :: p => l :: labelsOf p
  | _ :: p => labelsOf p

/-- Is every label a statement jumps to declared? -/
def jumpOk (ls : List Nat) : HStmt → Bool
  | .ifGoto _ l => ls.contains l
  | .goto l => ls.contains l
  | .nextDesc _ _ _ _ _ l => ls.contains l
  | _ => true

/-- Is a register access one the port gives a meaning: an aligned 32-bit word inside the window (10_state.md R20, R21)? -/
def accessOk : HStmt → Bool
  | .wr off width _ => decide (width = 32) && decide (off % 4 = 0) && decide (off < windowSize)
  | .rd off width _ => decide (width = 32) && decide (off % 4 = 0) && decide (off < windowSize)
  | _ => true

/-- A well-formed host program: every jump has its label, no label is declared twice, every register access is legal (R62, R20). -/
def hostProgramOk (p : List HStmt) : Bool :=
  p.all (jumpOk (labelsOf p)) && decide (labelsOf p).Nodup && p.all accessOk

end Machine

end Sys2Proof
end

