-- ==== Sys2Proof/Decode.lean ====
section
/-! DEFINITION. Decoding a command word (30_encoding.md R55), total on every 32-bit word and rejecting by name, and after it
the encoder, written from the same table (R53, R54). A command word reaches the block whole, as a register value
(R42, R59), so the decoder reads a word and no byte order is involved. -/

namespace Sys2Proof

/-- Why a word is illegal: the checks 1 to 3 of R55, in that order. -/
inductive DecodeError where
  /-- Check 1: `rsv`, bits 31:16, is not 0. -/
  | rsvNonzero
  /-- Check 2: `op`, bits 7:0, is none of the nine opcodes of R54. -/
  | unassignedOpcode
  /-- Check 3: `imm8`, bits 15:8, is not 0 and the opcode is not CRC_BYTE's. -/
  | immNonzero
  deriving DecidableEq, Repr

/-- `op`, bits 7:0 (R53). -/
def opField (w : Word) : Byte := w.extractLsb' 0 8

/-- `imm8`, bits 15:8 (R53). -/
def immField (w : Word) : Byte := w.extractLsb' 8 8

/-- `rsv`, bits 31:16 (R53). -/
def rsvField (w : Word) : BitVec 16 := w.extractLsb' 16 16

/-- The command an opcode selects, given the imm8 field (the opcode map of R54). -/
def ofOpcode (op imm : Byte) : Option Instr :=
  if op = 0x01 then some .crcInit
  else if op = 0x02 then some (.crcByte imm)
  else if op = 0x03 then some .crcBuf
  else if op = 0x10 then some .typeCheck
  else if op = 0x20 then some .sigCheck
  else if op = 0x21 then some .chunkDecode
  else if op = 0x30 then some .chunkNew
  else if op = 0x31 then some .chunkEncode
  else if op = 0x32 then some .sigEmit
  else none

/-- Decode (R55): the checks in the spec's order, the first that holds decides. -/
def decode (w : Word) : Except DecodeError Instr :=
  if rsvField w ≠ 0 then .error .rsvNonzero
  else match ofOpcode (opField w) (immField w) with
    | none => .error .unassignedOpcode
    | some i =>
      if opField w ≠ 0x02 ∧ immField w ≠ 0 then .error .immNonzero
      else .ok i

/-- The command a word selects, if it is legal (R55 step 4). -/
def decode? (w : Word) : Option Instr :=
  match decode w with
  | .ok i => some i
  | .error _ => none

/-- The opcode of a command (R54). -/
def opcodeOf : Instr → Byte
  | .crcInit => 0x01
  | .crcByte _ => 0x02
  | .crcBuf => 0x03
  | .typeCheck => 0x10
  | .sigCheck => 0x20
  | .chunkDecode => 0x21
  | .chunkNew => 0x30
  | .chunkEncode => 0x31
  | .sigEmit => 0x32

/-- The imm8 field of a command: CRC_BYTE's byte, 0 for every other (R53). -/
def immOf : Instr → Byte
  | .crcInit => 0
  | .crcByte imm8 => imm8
  | .crcBuf => 0
  | .typeCheck => 0
  | .sigCheck => 0
  | .chunkDecode => 0
  | .chunkNew => 0
  | .chunkEncode => 0
  | .sigEmit => 0

/-- Encode: format C of R53, rsv ++ imm8 ++ op. -/
def encode (i : Instr) : Word := (0 : BitVec 16) ++ immOf i ++ opcodeOf i

/-- What the decoder reads from a row of spec/opcode_table.json whose bits are w. Every command is exactly one 32-bit word
(R59), so a number that does not fit 32 bits is no command word, and the bits above `nbits` are 0 (log entry 19). -/
def decodeTableWord (nbits w : Nat) : Option Instr :=
  if w % 2 ^ nbits < 2 ^ 32 then decode? (BitVec.ofNat 32 (w % 2 ^ nbits)) else none

end Sys2Proof
end

