-- ==== Sys2Proof/Machine/State.lean ====
section
/-! DEFINITION. The state of the machine: everything 10_state.md gives the block, the host agent beside it (R18), and two fields
of the model's own (`draws`, `turns`). Plain data throughout. INVENTORY.md lists every field with its rule and reset value. -/

namespace Sys2Proof.Machine

/-- The engine phase (10_state.md R37). STATUS.BUSY is 1 exactly when the phase is `run`. -/
inductive Phase where
  | idle
  | run
  deriving DecidableEq, Repr

/-- Who moves next. -/
inductive Agent where
  /-- The host performs one statement. -/
  | host
  /-- The engine performs the latched command. -/
  | engine
  /-- The platform asserts reset (70_reset_and_hazards.md R129). -/
  | reset
  deriving DecidableEq, Repr

/-- A buffer's contents: (offset, byte) pairs, offsets strictly rising. An unlisted offset holds no value (10_state.md R39). -/
abbrev Memory := List Host.Cell

/-- The machine's state. -/
structure State where
  /-- The implementation parameters (00_scope.md R12). No step changes them. -/
  cfg : Config
  /-- Engine phase (R37). -/
  phase : Phase
  /-- PEND, the latched command word (R37). -/
  pend : Word
  /-- STATUS.OVERRUN (R24). -/
  overrun : Bool
  /-- ERRCODE.CODE (R25). -/
  errcode : BitVec 4
  /-- IN_LEN (R27). -/
  inLen : Word
  /-- IN_PTR (R28). -/
  inPtr : Word
  /-- OUT_PTR (R29). -/
  outPtr : Word
  /-- CHK_LEN (R30). -/
  chkLen : Word
  /-- CHK_TYPE (R31). -/
  chkType : Word
  /-- CHK_DOFS (R32). -/
  chkDofs : Word
  /-- CHK_CRC (R33). -/
  chkCrc : Word
  /-- CRC_STATE (R34). -/
  crcState : Word
  /-- IBUF (R38). -/
  ibuf : Memory
  /-- OBUF (R38). -/
  obuf : Memory
  /-- The host agent (R18). -/
  host : HostAgent
  /-- The model's own: how many free values have been drawn (log entry 4). -/
  draws : Nat
  /-- The model's own: who moves next, first to last. When empty, the engine moves if it is in RUN and else the host (log entry 5). -/
  turns : List Agent
  deriving DecidableEq, Repr

/-- Reasons a run stops with a fault. The first three are the spec's own model faults (60_exceptions.md R115). -/
inductive Fault where
  /-- R20: a host register access that is not an aligned 32-bit word. Raised by the host port. Safe: the spec gives it no meaning. -/
  | hostBadRegAccess
  /-- R39: a read of a buffer byte no write has set since reset. Raised by CRC_BUF, SIG_CHECK, CHUNK_DECODE, CHUNK_NEW, CHUNK_ENCODE
  and by a host buffer read. Safe. -/
  | unwrittenRead
  /-- R137: a host write to IBUF or OBUF while STATUS.BUSY = 1. Raised by the host port. Safe. -/
  | hostBufWriteBusy
  /-- R47: a host access at a buffer offset at or above the buffer's size, an offset that does not exist. Raised by the host port.
  Safe (log entry 9). -/
  | hostBufRange
  deriving DecidableEq, Repr

/-- Reasons the model gives no result. -/
inductive Refusal where
  /-- An instruction whose meaning is not written yet; raised only by an arm of `exec`. Safe. -/
  | notModelled (mnemonic : String)
  /-- R21, U6: a register access at offset 0x40 or above does not reach the block; the platform decides. Raised by the host port. Safe. -/
  | outsideWindow
  /-- A host program jumps to a label it does not declare. Raised by the host's own statements, never by the block. Safe (log entry 20). -/
  | undefinedLabel
  deriving DecidableEq, Repr

/-- What one step answers. -/
abbrev Result := Host.Outcome State Fault Refusal

/-- The block's reset state (70_reset_and_hazards.md R130) for given parameters, with no host program and no turn planned. PEND is
unspecified there; 0 is the model's choice (log entry 1). -/
def State.resetWith (c : Config) : State :=
  { cfg := c
    phase := .idle
    pend := 0
    overrun := false
    errcode := 0
    inLen := 0
    inPtr := 0
    outPtr := 0
    chkLen := 0
    chkType := 0
    chkDofs := 0
    chkCrc := 0
    crcState := 0xFFFFFFFF
    ibuf := []
    obuf := []
    host := HostAgent.init
    draws := 0
    turns := [] }

/-- The machine right after reset (R130). Its parameters are log entry 2's. -/
def State.reset : State := State.resetWith Config.atReset

end Sys2Proof.Machine
end

