-- ==== Sys2Proof/Machine/Ops.lean ====
section
/-! DEFINITION. The named operations over buffers and registers, and the two ways a command ends: `complete` and `raise`
(00_scope.md R15, 60_exceptions.md R104, R120). -/

namespace Sys2Proof.Machine

/-! ### Key-value lists: the one representation of sparse data -/

/-- The value listed at a key. -/
def lookupKey {α : Type} (k : Nat) : List (Nat × α) → Option α
  | [] => none
  | (j, v) :: m => if j = k then some v else lookupKey k m

/-- List a value at a key, keeping the keys rising and replacing an earlier entry. -/
def insertKey {α : Type} (k : Nat) (v : α) : List (Nat × α) → List (Nat × α)
  | [] => [(k, v)]
  | (j, w) :: m =>
    if k < j then (k, v) :: (j, w) :: m
    else if k = j then (k, v) :: m
    else (j, w) :: insertKey k v m

/-- Remove a key's entry. -/
def eraseKey {α : Type} (k : Nat) : List (Nat × α) → List (Nat × α)
  | [] => []
  | (j, w) :: m => if j = k then m else (j, w) :: eraseKey k m

/-- Every key is above a bound and the keys rise strictly from there. -/
def risingFrom {α : Type} (b : Nat) : List (Nat × α) → Bool
  | [] => true
  | (j, _) :: m => decide (b ≤ j) && risingFrom (j + 1) m

/-! ### Buffers -/

/-- The byte a buffer holds at an offset; none where no write has set it (10_state.md R39). -/
def Memory.read (m : Memory) (a : Nat) : Option Byte := lookupKey a m

/-- Write one byte (R42: every buffer access is one byte wide). -/
def Memory.write (m : Memory) (a : Nat) (b : Byte) : Memory := insertKey a b m

/-- `MemRead(m, a, n)` (00_scope.md R15): the n bytes from offset a, none when one of them holds no value (R39). -/
def Memory.readRange (m : Memory) (a : Nat) : Nat → Option (List Byte)
  | 0 => some []
  | n + 1 =>
    match m.read a with
    | none => none
    | some b =>
      match Memory.readRange m (a + 1) n with
      | none => none
      | some bs => some (b :: bs)

/-- `MemWrite(m, a, n, s)` with n the length of s (R15). -/
def Memory.writeBytes (m : Memory) (a : Nat) : List Byte → Memory
  | [] => m
  | b :: bs => Memory.writeBytes (m.write a b) (a + 1) bs

/-- The canonical form: offsets strictly rising. An unlisted offset holds no value, so no entry can equal that. -/
def Memory.wf (m : Memory) : Bool := risingFrom 0 m

/-- Every listed offset exists in a buffer of n bytes (20_memory.md R47). -/
def Memory.within (n : Nat) (m : Memory) : Bool := m.all fun c => decide (c.1 < n)

/-! ### Byte order (20_memory.md R41) -/

/-- `be32(b0, b1, b2, b3)` of R15: big-endian, b0 most significant. -/
def be32 (b0 b1 b2 b3 : Byte) : Word := b0 ++ b1 ++ b2 ++ b3

/-- `be32bytes(v)` of R15. -/
def be32bytes (v : Word) : List Byte :=
  [v.extractLsb' 24 8, v.extractLsb' 16 8, v.extractLsb' 8 8, v.extractLsb' 0 8]

/-- A 4-byte field at an offset, `be32(IBUF[a], IBUF[a+1], IBUF[a+2], IBUF[a+3])` (R41). -/
def Memory.read32 (m : Memory) (a : Nat) : Option Word :=
  match m.readRange a 4 with
  | some [b0, b1, b2, b3] => some (be32 b0 b1 b2 b3)
  | _ => none

/-! ### Error kinds (60_exceptions.md R105) -/

/-- The error kinds. `noSuchChunk` is reserved and never raised (R110). -/
inductive Err where
  | invalidChunkType | chunkTooShort | chunkLengthInvalid | badChunkCrc | noSuchChunk
  | invalidHeader | fileTooShort | illegalCommand | bufferRange
  deriving DecidableEq, Repr

/-- The code of an error (R105). -/
def Err.code : Err → BitVec 4
  | .invalidChunkType => 1
  | .chunkTooShort => 2
  | .chunkLengthInvalid => 3
  | .badChunkCrc => 4
  | .noSuchChunk => 5
  | .invalidHeader => 6
  | .fileTooShort => 7
  | .illegalCommand => 8
  | .bufferRange => 9

/-! ### How a command ends -/

/-- A command's end: CODE is written and the engine returns to IDLE, so STATUS.BUSY becomes 0 (R25, 10_state.md R37). -/
def State.endWith (s : State) (code : BitVec 4) : State := { s with errcode := code, phase := .idle }

/-- `raise E` (R15, R120): the code, STATUS.BUSY, and nothing else. This is the block's whole exception entry: nothing is saved,
no mode changes, control goes nowhere. There is no return from it (R121). -/
def State.raise (s : State) (e : Err) : State := s.endWith e.code

/-- `complete` (R15, R104): CODE 0 and STATUS.BUSY 0. -/
def State.complete (s : State) : State := s.endWith 0

/-! ### Register and buffer updates -/

/-- Write CRC_STATE (R34). -/
def State.setCrcState (s : State) (v : Word) : State := { s with crcState := v }

/-- Write CHK_CRC (R33). -/
def State.setChkCrc (s : State) (v : Word) : State := { s with chkCrc := v }

/-- Write IN_PTR (R28). -/
def State.setInPtr (s : State) (v : Word) : State := { s with inPtr := v }

/-- Load the current chunk and move IN_PTR: the five registers of 42_chunk_frame.md R87. -/
def State.loadChunk (s : State) (len type dofs crc next : Word) : State :=
  { s with chkLen := len, chkType := type, chkDofs := dofs, chkCrc := crc, inPtr := next }

/-- Emit bytes to OBUF at OUT_PTR and advance OUT_PTR by their number, mod 2^32 (R29). -/
def State.emit (s : State) (bs : List Byte) : State :=
  { s with
    obuf := s.obuf.writeBytes s.outPtr.toNat bs
    outPtr := BitVec.ofNat 32 (s.outPtr.toNat + bs.length) }

/-- The issuing effect of a CMD write (R23): BUSY 1, OVERRUN 0, PEND takes the word. -/
def State.issue (s : State) (w : Word) : State := { s with phase := .run, overrun := false, pend := w }

/-- Set or clear STATUS.OVERRUN (R24). -/
def State.setOverrun (s : State) (b : Bool) : State := { s with overrun := b }

/-- Store a byte in one of the two buffers. -/
def State.setByte (s : State) (buf : Buffer) (a : Nat) (b : Byte) : State :=
  match buf with
  | .ibuf => { s with ibuf := s.ibuf.write a b }
  | .obuf => { s with obuf := s.obuf.write a b }

/-- Count one free value as drawn (log entry 4). -/
def State.drew (s : State) : State := { s with draws := s.draws + 1 }

/-- Replace the host agent. -/
def State.setHost (s : State) (h : HostAgent) : State := { s with host := h }

/-- Replace the plan of turns. -/
def State.setTurns (s : State) (ts : List Agent) : State := { s with turns := ts }

/-- Reset (70_reset_and_hazards.md R129 to R131): the block's reset state from any state, the command in progress aborted, both
buffers without values. The parameters, the host agent, the plan of turns and the draw counter are not the block's and stay
(log entry 14). -/
def State.resetInput (s : State) : State :=
  { State.resetWith s.cfg with host := s.host, draws := s.draws, turns := s.turns }

/-- Is STATUS.BUSY 1? -/
def State.busy (s : State) : Bool := decide (s.phase = .run)

/-- The size of a buffer (00_scope.md R12). -/
def State.bufSize (s : State) : Buffer → Nat
  | .ibuf => s.cfg.ibufSize
  | .obuf => s.cfg.obufSize

/-- The contents of a buffer. -/
def State.bufOf (s : State) : Buffer → Memory
  | .ibuf => s.ibuf
  | .obuf => s.obuf

end Sys2Proof.Machine
end

