-- ==== Sys2Proof/Machine/Operands.lean ====
section
/-! DEFINITION. What the commands compute from their operands: the CRC (41_crc.md), the signature (43_stream.md R95) and the
payload interval (30_encoding.md R57, 20_memory.md R43). -/

namespace Sys2Proof.Machine

/-! ### CRC-32/ISO-HDLC (41_crc.md R71 to R73) -/

/-- The polynomial, reflected form (R71). -/
def crcPoly : Word := 0xEDB88320

/-- The initial register (R71, R75). -/
def crcInitValue : Word := 0xFFFFFFFF

/-- One round of R72: `fb <- c[0] ^ x[k]; c <- (c >> 1) ^ (fb ? 0xEDB88320 : 0)`. -/
def crcBit (c : Word) (b : Bool) : Word :=
  (c >>> 1) ^^^ (if c.getLsbD 0 ^^ b then crcPoly else 0)

/-- `crc_step8(c, x)` (R72): bit 0 of x first. -/
def crcStep8 (c : Word) (x : Byte) : Word :=
  [0, 1, 2, 3, 4, 5, 6, 7].foldl (fun c k => crcBit c (x.getLsbD k)) c

/-- Fold a byte sequence into a raw register, first byte first (R73, R77). -/
def crcFold (c : Word) (s : List Byte) : Word := s.foldl crcStep8 c

/-- `crc32(s)` (R73). -/
def crc32 (s : List Byte) : Word := ~~~ crcFold crcInitValue s

/-- `crc_chunk(t, d)` (R78): over the type bytes and the payload, in a private register. -/
def crcChunk (t : Word) (d : List Byte) : Word := crc32 (be32bytes t ++ d)

/-! ### The signature -/

/-- SIG (43_stream.md R95). -/
def signature : List Byte := [0x89, 0x50, 0x4E, 0x47, 0x0D, 0x0A, 0x1A, 0x0A]

/-! ### The payload CHK_DOFS, CHK_LEN -/

/-- `MemRead(IBUF, CHK_DOFS, CHK_LEN)` (10_state.md R32). -/
def State.payload (s : State) : Option (List Byte) := s.ibuf.readRange s.chkDofs.toNat s.chkLen.toNat

/-- The wire form of a chunk: LENGTH ++ TYPE ++ DATA ++ CRC (30_encoding.md R60, R61). -/
def frameBytes (len type : Word) (data : List Byte) (crc : Word) : List Byte :=
  be32bytes len ++ be32bytes type ++ data ++ be32bytes crc

end Sys2Proof.Machine
end

