-- ==== Sys2Proof/Machine/Flags.lean ====
section
/-! DEFINITION. The combinational fields: the letter check and the property bits of a type code (40_chunk_type.md R64 to R69), TSTAT
(10_state.md R26), STATUS (R24), CRC_VALUE (R35), and the value every register reads as (R19). -/

namespace Sys2Proof.Machine

/-- `is_letter(x)` (R64). -/
def isLetter (x : Byte) : Bool :=
  (decide (0x41 ≤ x.toNat) && decide (x.toNat ≤ 0x5A)) || (decide (0x61 ≤ x.toNat) && decide (x.toNat ≤ 0x7A))

/-- `letters(t)` (R64): all four bytes are ASCII letters. -/
def letters (t : Word) : Bool :=
  isLetter (t.extractLsb' 24 8) && isLetter (t.extractLsb' 16 8) && isLetter (t.extractLsb' 8 8) && isLetter (t.extractLsb' 0 8)

/-- `is_critical(t)` (R65). -/
def isCritical (t : Word) : Bool := !t.getLsbD 29

/-- `is_public(t)` (R66). -/
def isPublic (t : Word) : Bool := !t.getLsbD 21

/-- `is_reserved_bit_valid(t)` (R67), the source's narrow `is_valid`. -/
def isReservedBitValid (t : Word) : Bool := !t.getLsbD 13

/-- `is_safe_to_copy(t)` (R68). -/
def isSafeToCopy (t : Word) : Bool := t.getLsbD 5

/-- A word whose bits 0, 1, 2, ... are the given flags and whose other bits are 0. -/
def flagWord (bits : List Bool) : Word :=
  BitVec.ofNat 32 (bits.foldr (fun b n => (if b then 1 else 0) + 2 * n) 0)

/-- TSTAT of a type code (10_state.md R26): LETTERS, CRITICAL, PUBLIC, RSV_VALID, SAFE_COPY in bits 0 to 4. -/
def tstatOf (t : Word) : Word :=
  flagWord [letters t, isCritical t, isPublic t, isReservedBitValid t, isSafeToCopy t]

/-- STATUS.ERR (R24): `ERRCODE.CODE != 0`. -/
def State.errFlag (s : State) : Bool := decide (s.errcode ≠ 0)

/-- STATUS.EOS (R24): `IN_PTR == IN_LEN`. -/
def State.eosFlag (s : State) : Bool := decide (s.inPtr = s.inLen)

/-- The STATUS word of given fields (R24): BUSY, ERR, EOS, OVERRUN in bits 0 to 3, bits 31:4 read 0. -/
def statusWord (busy err eos overrun : Bool) : Word := flagWord [busy, err, eos, overrun]

/-- The exact value a register reads as (R19, R23 to R35): CMD reads 0, ERRCODE is zero-extended. -/
def State.readReg (s : State) : RegName → Word
  | .cmd => 0
  | .status => statusWord s.busy s.errFlag s.eosFlag s.overrun
  | .errcode => s.errcode.zeroExtend 32
  | .tstat => tstatOf s.chkType
  | .inLen => s.inLen
  | .inPtr => s.inPtr
  | .outPtr => s.outPtr
  | .chkLen => s.chkLen
  | .chkType => s.chkType
  | .chkDofs => s.chkDofs
  | .chkCrc => s.chkCrc
  | .crcState => s.crcState
  | .crcValue => ~~~ s.crcState

/-- A host write to a register while the engine is idle (R20): a RW register takes the whole value, a read-only one ignores it.
CMD and STATUS have rules of their own in HostPort.lean. -/
def State.writeReg (s : State) (r : RegName) (v : Word) : State :=
  match r with
  | .cmd => s
  | .status => s
  | .errcode => s
  | .tstat => s
  | .inLen => { s with inLen := v }
  | .inPtr => { s with inPtr := v }
  | .outPtr => { s with outPtr := v }
  | .chkLen => { s with chkLen := v }
  | .chkType => { s with chkType := v }
  | .chkDofs => { s with chkDofs := v }
  | .chkCrc => { s with chkCrc := v }
  | .crcState => { s with crcState := v }
  | .crcValue => s

end Sys2Proof.Machine
end

