-- ==== Sys2Proof/Machine/Chunk.lean ====
section
/-! DEFINITION. The chunk frame commands: CHUNK_DECODE, CHUNK_NEW and CHUNK_ENCODE (42_chunk_frame.md R81 to R92). -/

namespace Sys2Proof.Machine

/-- The last checks of CHUNK_DECODE, once LENGTH is read and fits (R85 to R87): the type code, then the CRC, then the writes. -/
def decodeBody (s : State) (p : Nat) (len : Word) : Result :=
  match s.ibuf.read32 (p + 4) with
  | none => .fault .unwrittenRead
  | some t =>
    if letters t = false then .next (s.raise .invalidChunkType)
    else match s.ibuf.readRange (p + 8) len.toNat with
      | none => .fault .unwrittenRead
      | some d =>
        match s.ibuf.read32 (p + 8 + len.toNat) with
        | none => .fault .unwrittenRead
        | some c =>
          if crcChunk t d ≠ c then .next (s.raise .badChunkCrc)
          else .next (s.loadChunk len t (BitVec.ofNat 32 (p + 8)) c (BitVec.ofNat 32 (p + 12 + len.toNat))).complete

/-- CHUNK_DECODE (R81), its checks in the order of R82. All sums are exact. -/
def execChunkDecode (s : State) : Result :=
  if s.cfg.ibufSize < s.inLen.toNat ∨ s.inLen.toNat < s.inPtr.toNat then .next (s.raise .bufferRange)
  else if s.inLen.toNat - s.inPtr.toNat < 12 then .next (s.raise .chunkTooShort)
  else match s.ibuf.read32 s.inPtr.toNat with
    | none => .fault .unwrittenRead
    | some len =>
      if s.inLen.toNat - s.inPtr.toNat < len.toNat + 12 then .next (s.raise .chunkLengthInvalid)
      else decodeBody s s.inPtr.toNat len

/-- CHUNK_NEW (R89): the range check before the type check. -/
def execChunkNew (s : State) : Result :=
  if s.cfg.ibufSize < s.chkDofs.toNat + s.chkLen.toNat then .next (s.raise .bufferRange)
  else if letters s.chkType = false then .next (s.raise .invalidChunkType)
  else match s.payload with
    | none => .fault .unwrittenRead
    | some d => .next (s.setChkCrc (crcChunk s.chkType d)).complete

/-- CHUNK_ENCODE (R91): the IBUF interval, then the OBUF interval, then the type; the stored CRC is written, not recomputed. -/
def execChunkEncode (s : State) : Result :=
  if s.cfg.ibufSize < s.chkDofs.toNat + s.chkLen.toNat then .next (s.raise .bufferRange)
  else if s.cfg.obufSize < s.outPtr.toNat + 12 + s.chkLen.toNat then .next (s.raise .bufferRange)
  else if letters s.chkType = false then .next (s.raise .invalidChunkType)
  else match s.payload with
    | none => .fault .unwrittenRead
    | some d => .next (s.emit (frameBytes s.chkLen s.chkType d s.chkCrc)).complete

end Sys2Proof.Machine
end

