-- ==== Sys2Proof/Machine/ChunkType.lean ====
section
/-! DEFINITION. The type code command TYPE_CHECK (40_chunk_type.md R70). -/

namespace Sys2Proof.Machine

/-- TYPE_CHECK (R70). It does not look at the property bits. -/
def execTypeCheck (s : State) : Result :=
  if letters s.chkType = false then .next (s.raise .invalidChunkType) else .next s.complete

end Sys2Proof.Machine
end

