-- ==== Sys2Proof/Machine/Crc.lean ====
section
/-! DEFINITION. The streaming CRC generator's commands: CRC_INIT, CRC_BYTE and CRC_BUF (41_crc.md R75 to R77). -/

namespace Sys2Proof.Machine

/-- CRC_INIT (R75). -/
def execCrcInit (s : State) : Result := .next (s.setCrcState crcInitValue).complete

/-- CRC_BYTE (R76). -/
def execCrcByte (imm8 : Byte) (s : State) : Result := .next (s.setCrcState (crcStep8 s.crcState imm8)).complete

/-- CRC_BUF (R77): BufferRange before any access; an unwritten byte of the run is the fault of 10_state.md R39. -/
def execCrcBuf (s : State) : Result :=
  if s.cfg.ibufSize < s.chkDofs.toNat + s.chkLen.toNat then .next (s.raise .bufferRange)
  else match s.payload with
    | none => .fault .unwrittenRead
    | some d => .next (s.setCrcState (crcFold s.crcState d)).complete

end Sys2Proof.Machine
end

