-- ==== Sys2Proof/Machine/Stream.lean ====
section
/-! DEFINITION. The signature commands: SIG_CHECK and SIG_EMIT (43_stream.md R95 to R98). -/

namespace Sys2Proof.Machine

/-- SIG_CHECK (R96), its checks in the order of R97. It reads from offset 0 whatever IN_PTR is. -/
def execSigCheck (s : State) : Result :=
  if s.cfg.ibufSize < s.inLen.toNat then .next (s.raise .bufferRange)
  else if s.inLen.toNat < 8 then .next (s.raise .fileTooShort)
  else match s.ibuf.readRange 0 8 with
    | none => .fault .unwrittenRead
    | some bs =>
      if bs ≠ signature then .next (s.raise .invalidHeader)
      else .next (s.setInPtr 8).complete

/-- SIG_EMIT (R98). -/
def execSigEmit (s : State) : Result :=
  if s.cfg.obufSize < s.outPtr.toNat + 8 then .next (s.raise .bufferRange)
  else .next (s.emit signature).complete

end Sys2Proof.Machine
end

