-- ==== Sys2Proof/Machine/Dispatch.lean ====
section
/-! DEFINITION. The dispatch of a decoded command to its meaning (30_encoding.md R54): one arm per constructor of Instr. -/

namespace Sys2Proof.Machine

def exec (i : Instr) (s : State) : Host.Outcome State Fault Refusal :=
  match i with
  | .crcInit => Sys2Proof.Machine.execCrcInit s
  | .crcByte imm8 => Sys2Proof.Machine.execCrcByte imm8 s
  | .crcBuf => Sys2Proof.Machine.execCrcBuf s
  | .typeCheck => Sys2Proof.Machine.execTypeCheck s
  | .sigCheck => Sys2Proof.Machine.execSigCheck s
  | .chunkDecode => Sys2Proof.Machine.execChunkDecode s
  | .chunkNew => Sys2Proof.Machine.execChunkNew s
  | .chunkEncode => Sys2Proof.Machine.execChunkEncode s
  | .sigEmit => Sys2Proof.Machine.execSigEmit s

end Sys2Proof.Machine
end

