-- ==== Sys2Proof/Machine/Engine.lean ====
section
/-! DEFINITION. The engine's step (30_encoding.md R56): decode PEND and perform the command to its end, or raise IllegalCommand. -/

namespace Sys2Proof.Machine

/-- Perform the latched word (R55, R56). -/
def performPend (s : State) : Result :=
  match decode? s.pend with
  | some i => exec i s
  | none => .next (s.raise .illegalCommand)

/-- The engine's turn: it has a step to take in phase RUN only (10_state.md R37, log entry 5). -/
def engineStep (s : State) : Result :=
  match s.phase with
  | .run => performPend s
  | .idle => .next s

/-- A command word latched and the engine's turn put first, so that the next step performs it. -/
def latchWord (s : State) (w : Word) : State := { s with phase := .run, pend := w, turns := .engine :: s.turns }

end Sys2Proof.Machine
end

