-- ==== Sys2Proof/Machine/HostPort.lean ====
section
/-! DEFINITION. The host port: one register or buffer access of the host, as 10_state.md R19 to R39 and the hazards of
70_reset_and_hazards.md R133 to R137 give it. A read answers the value and the state after it. -/

namespace Sys2Proof.Machine

/-! ### What the command in progress may write (R19's 'written by' column, R135, R136) -/

/-- May this command write this register, or a register it follows? STATUS is treated field by field, not here. -/
def writtenBy (i : Instr) (r : RegName) : Bool :=
  match r with
  | .cmd => false
  | .status => true
  | .errcode => true
  | .tstat => decide (i = .chunkDecode)
  | .inLen => false
  | .inPtr => decide (i = .sigCheck) || decide (i = .chunkDecode)
  | .outPtr => decide (i = .sigEmit) || decide (i = .chunkEncode)
  | .chkLen => decide (i = .chunkDecode)
  | .chkType => decide (i = .chunkDecode)
  | .chkDofs => decide (i = .chunkDecode)
  | .chkCrc => decide (i = .chunkDecode) || decide (i = .chunkNew)
  | .crcState => writesCrc i
  | .crcValue => writesCrc i
where
  /-- Is it one of CRC_INIT, CRC_BYTE, CRC_BUF (R34)? -/
  writesCrc : Instr → Bool
    | .crcInit => true
    | .crcByte _ => true
    | .crcBuf => true
    | .typeCheck => false
    | .sigCheck => false
    | .chunkDecode => false
    | .chunkNew => false
    | .chunkEncode => false
    | .sigEmit => false

/-- May the latched word, legal or not, write this register? An illegal word writes ERRCODE and STATUS only (60_exceptions.md R113,
log entry 13). -/
def pendWrites (w : Word) (r : RegName) : Bool :=
  match decode? w with
  | some i => writtenBy i r
  | none => decide (r = .errcode) || decide (r = .status)

/-- How many OBUF bytes from OUT_PTR on the latched command writes (20_memory.md R43). -/
def outputBytes (s : State) : Nat :=
  match decode? s.pend with
  | some .chunkEncode => 12 + s.chkLen.toNat
  | some .sigEmit => 8
  | _ => 0

/-- Is the offset in the output interval of the command in progress (R136, R43)? -/
def inOutputInterval (s : State) (a : Nat) : Bool :=
  decide (s.outPtr.toNat ≤ a) && decide (a < s.outPtr.toNat + outputBytes s)

/-! ### Register accesses -/

/-- Is it an access the port gives a meaning: an aligned 32-bit word (R20)? -/
def goodAccess (off width : Nat) : Bool := decide (width = 32) && decide (off % 4 = 0)

/-- A read of a register while STATUS.BUSY = 1 (R135, R136). BUSY and OVERRUN read exactly, ERR is a free value, EOS is one when the
command may write IN_PTR, the reserved bits read 0 (log entry 11). A register the command may write is a free word; every other reads
exactly. -/
def State.readBusy (s : State) (r : RegName) : Word × State :=
  match r with
  | .status =>
    (statusWord true ((Config.drawWord s.draws).getLsbD 1)
      (if pendWrites s.pend .inPtr then (Config.drawWord s.draws).getLsbD 2 else s.eosFlag) s.overrun, s.drew)
  | r => if pendWrites s.pend r then (Config.drawWord s.draws, s.drew) else (s.readReg r, s)

/-- A host register read of `width` bits at byte offset `off` (R20, R21). Reserved offsets read 0. A read has no side effect
(20_memory.md R46). -/
def hostRead (off width : Nat) (s : State) : Host.Outcome (Word × State) Fault Refusal :=
  if windowSize ≤ off then .refused .outsideWindow
  else if goodAccess off width then
    match regAt off with
    | none => .next (0, s)
    | some r => if s.busy then .next (s.readBusy r) else .next (s.readReg r, s)
  else .fault .hostBadRegAccess

/-- A host write to a named register. STATUS: bit 3 set clears OVERRUN, at any time (R24). While BUSY = 1 any other register's write is
dropped and sets OVERRUN (R24, R133, R134). While idle, CMD issues (R23) and the others follow R20. -/
def State.hostWriteReg (s : State) (r : RegName) (v : Word) : State :=
  match r with
  | .status => if v.getLsbD 3 then s.setOverrun false else s
  | .cmd => if s.busy then s.setOverrun true else s.issue v
  | r => if s.busy then s.setOverrun true else s.writeReg r v

/-- A host register write of `width` bits at byte offset `off` (R20, R21). Writes to reserved offsets are ignored. -/
def hostWrite (off width : Nat) (v : Word) (s : State) : Result :=
  if windowSize ≤ off then .refused .outsideWindow
  else if goodAccess off width then
    match regAt off with
    | none => .next s
    | some r => .next (s.hostWriteReg r v)
  else .fault .hostBadRegAccess

/-! ### Buffer accesses -/

/-- A host byte read (R38). IBUF reads exactly at any time; an OBUF byte in the output interval of the command in progress is a free
byte (R135, R136, log entry 12); a byte no write has set is the fault of R39; an offset the buffer does not have is a fault (R47). -/
def hostReadByte (buf : Buffer) (a : Nat) (s : State) : Host.Outcome (Byte × State) Fault Refusal :=
  if a < s.bufSize buf then
    if decide (buf = .obuf) && s.busy && inOutputInterval s a then .next (Config.drawByte s.draws, s.drew)
    else match (s.bufOf buf).read a with
      | none => .fault .unwrittenRead
      | some b => .next (b, s)
  else .fault .hostBufRange

/-- A host byte write (R38): no meaning while BUSY = 1 (R137). -/
def hostWriteByte (buf : Buffer) (a : Nat) (b : Byte) (s : State) : Result :=
  if s.busy then .fault .hostBufWriteBusy
  else if a < s.bufSize buf then .next (s.setByte buf a b)
  else .fault .hostBufRange

end Sys2Proof.Machine
end

