-- ==== Sys2Proof/Machine/HostProgram.lean ====
section
/-! DEFINITION. The host agent's own step: one statement of the host program notation (30_encoding.md R62), the macros (R63), and the
two host procedures PARSE and SERIALIZE (43_stream.md R99, R101) written out in it. -/

namespace Sys2Proof.Machine

/-! ### Host variables and expressions -/

/-- The value of a host variable; one never set reads 0 (log entry 7). -/
def HostAgent.get (h : HostAgent) (x : Nat) : Nat := (lookupKey x h.vars).getD 0

/-- Set a host variable, keeping the canonical form: an entry of value 0 is not listed. -/
def HostAgent.put (h : HostAgent) (x v : Nat) : HostAgent :=
  { h with vars := if v = 0 then eraseKey x h.vars else insertKey x v h.vars }

/-- The value of an expression. -/
def HostAgent.eval (h : HostAgent) : HExpr → Nat
  | .lit n => n
  | .var x => h.get x
  | .add a b => h.eval a + h.eval b
  | .sub a b => h.eval a - h.eval b
  | .bit a i => if (h.eval a).testBit i then 1 else 0

/-- The truth of a condition. -/
def HostAgent.holds (h : HostAgent) : HCond → Bool
  | .eq a b => decide (h.eval a = h.eval b)
  | .ne a b => decide (h.eval a ≠ h.eval b)
  | .lt a b => decide (h.eval a < h.eval b)

/-! ### Host control flow -/

/-- The next statement. -/
def HostAgent.advance (h : HostAgent) : HostAgent := { h with pc := h.pc + 1 }

/-- The position of a label: the first, when a program declares it twice. DESIGN CHOICE (log entry 23): the spec gives such a program no
meaning, and `hostProgramOk` rejects it. -/
def findLabel (l : Nat) : List HStmt → Option Nat
  | [] => none
  | .label k :: p => if k = l then some 0 else (findLabel l p).map (· + 1)
  | _ :: p => (findLabel l p).map (· + 1)

/-- Has the host stopped: by accepting, by failing, or at its last statement (70_reset_and_hazards.md R141)? -/
def HostAgent.stopped (h : HostAgent) : Bool := decide (h.status ≠ .running) || decide (h.prog.length ≤ h.pc)

/-- The host moves to its next statement. -/
def State.hostNext (s : State) : State := s.setHost s.host.advance

/-- The host jumps to a label. -/
def hostJump (l : Nat) (s : State) : Result :=
  match findLabel l s.host.prog with
  | none => .refused .undefinedLabel
  | some k => .next (s.setHost { s.host with pc := k })

/-- The host takes a value into a variable and moves on. -/
def State.hostTake (s : State) (x v : Nat) : State := s.setHost (s.host.put x v).advance

/-! ### One statement -/

/-- A host statement (R62). A value written is reduced to the access's width: the notation asks for a 32-bit value or a byte
(log entry 7). -/
def execStmt (st : HStmt) (s : State) : Result :=
  match st with
  | .wr off width v =>
    match hostWrite off width (BitVec.ofNat 32 (s.host.eval v)) s with
    | .next t => .next t.hostNext
    | .fault f => .fault f
    | .refused r => .refused r
  | .rd off width x =>
    match hostRead off width s with
    | .next (v, t) => .next (t.hostTake x v.toNat)
    | .fault f => .fault f
    | .refused r => .refused r
  | .wrb buf a v =>
    match hostWriteByte buf (s.host.eval a) (BitVec.ofNat 8 (s.host.eval v)) s with
    | .next t => .next t.hostNext
    | .fault f => .fault f
    | .refused r => .refused r
  | .rdb buf a x =>
    match hostReadByte buf (s.host.eval a) s with
    | .next (b, t) => .next (t.hostTake x b.toNat)
    | .fault f => .fault f
    | .refused r => .refused r
  | .wait =>
    match hostRead RegName.status.offset 32 s with
    | .next (v, t) => .next (if v.getLsbD 0 then t else t.hostNext)
    | .fault f => .fault f
    | .refused r => .refused r
  | .label _ => .next s.hostNext
  | .ifGoto c l => if s.host.holds c then hostJump l s else .next s.hostNext
  | .goto l => hostJump l s
  | .fail e => .next (s.setHost { s.host with status := .failed (s.host.eval e) })
  | .accept => .next (s.setHost { s.host with status := .accepted })
  | .set x e => .next (s.hostTake x (s.host.eval e))
  | .append l t o c =>
    .next (s.setHost
      { s.host.advance with list := s.host.list ++ [⟨s.host.get l, s.host.get t, s.host.get o, s.host.get c⟩] })
  | .nextDesc i l t o c done =>
    match s.host.list[s.host.eval i]? with
    | some d => .next (s.setHost ((((s.host.put l d.len).put t d.type).put o d.dofs).put c d.crc).advance)
    | none => hostJump done s
  | .clearList => .next (s.setHost { s.host.advance with list := [] })

/-- The host agent's turn: the statement at its position, nothing once it has stopped (log entry 16). -/
def hostStep (s : State) : Result :=
  match s.host.status with
  | .running =>
    match s.host.prog[s.host.pc]? with
    | some st => execStmt st s
    | none => .next s
  | .accepted => .next s
  | .failed _ => .next s

/-- Give the host a program to run from its first statement, with fresh variables and an empty list (log entry 6). -/
def State.withProgram (s : State) (p : List HStmt) : State := s.setHost { HostAgent.init with prog := p }

/-! ### The notation's macros (R62, R63) -/

/-- `WR NAME, v`. -/
def WR (r : RegName) (v : HExpr) : HStmt := .wr r.offset 32 v

/-- `RD NAME -> x`. -/
def RD (r : RegName) (x : Nat) : HStmt := .rd r.offset 32 x

/-- A command mnemonic alone: a write of its command word to CMD, without waiting. -/
def CMD (i : Instr) : HStmt := WR .cmd (.lit (encode i).toNat)

/-- `DO <MNEMONIC>`. -/
def DO (i : Instr) : List HStmt := [CMD i, .wait]

/-- `CHECK`: read ERRCODE into e and go to the error exit when it is not 0. -/
def CHECK (e exit : Nat) : List HStmt := [RD .errcode e, .ifGoto (.ne (.var e) (.lit 0)) exit]

/-- `LOADB a, s`. -/
def LOADB (a : Nat) : List Byte → List HStmt
  | [] => []
  | b :: bs => .wrb .ibuf (.lit a) (.lit b.toNat) :: LOADB (a + 1) bs

/-- `TYPE "abcd"`, the four bytes given. -/
def TYPE (b0 b1 b2 b3 : Byte) : HStmt := WR .chkType (.lit (be32 b0 b1 b2 b3).toNat)

/-! ### PARSE and SERIALIZE -/

/-- The host variables the procedures use: the result code, STATUS, the four descriptor fields, the index, the length. -/
def vE : Nat := 0
def vSt : Nat := 1
def vL : Nat := 2
def vT : Nat := 3
def vO : Nat := 4
def vC : Nat := 5
def vI : Nat := 6
def vN : Nat := 7

/-- PARSE (43_stream.md R99) up to `done:`, with labels `loop` and `done` and the error exit `bad`. -/
def parseBody (loop done bad : Nat) : List HStmt :=
  DO .sigCheck ++ CHECK vE bad ++
  [.label loop, RD .status vSt, .ifGoto (.eq (.bit (.var vSt) 2) (.lit 1)) done] ++
  DO .chunkDecode ++ CHECK vE bad ++
  [RD .chkLen vL, RD .chkType vT, RD .chkDofs vO, RD .chkCrc vC, .append vL vT vO vC, .goto loop, .label done]

/-- PARSE as a whole program: accept the list, or discard it and report the failing command's code (R99). -/
def parseProgram : List HStmt :=
  parseBody 0 1 2 ++ [.accept, .label 2, .clearList, .fail (.var vE)]

/-- SERIALIZE (R101), with labels `loop` and `done` and the error exit `bad`. -/
def serializeBody (loop done bad : Nat) : List HStmt :=
  [WR .outPtr (.lit 0)] ++ DO .sigEmit ++ CHECK vE bad ++
  [.set vI (.lit 0), .label loop, .nextDesc (.var vI) vL vT vO vC done,
   WR .chkLen (.var vL), WR .chkType (.var vT), WR .chkDofs (.var vO), WR .chkCrc (.var vC)] ++
  DO .chunkEncode ++ CHECK vE bad ++
  [.set vI (.add (.var vI) (.lit 1)), .goto loop, .label done, RD .outPtr vN]

/-- SERIALIZE as a whole program. On a failure OBUF is to be treated as invalid (R101); the list stays. -/
def serializeProgram : List HStmt :=
  serializeBody 0 1 2 ++ [.accept, .label 2, .fail (.var vE)]

end Sys2Proof.Machine
end

