-- ==== Sys2Proof/Machine/Step.lean ====
section
/-! DEFINITION. One step of the machine: the agent whose turn it is moves (10_state.md R18, 20_memory.md R49). -/

namespace Sys2Proof.Machine

/-- One step. The plan `turns` says who moves; with no plan the engine moves whenever it is in RUN, and else the host. So the
engine always moves after finitely many host accesses (70_reset_and_hazards.md R140, log entry 5). -/
def step (s : State) : Host.Outcome State Fault Refusal :=
  match s.turns with
  | [] => if s.busy then engineStep s else hostStep s
  | .engine :: ts => engineStep (s.setTurns ts)
  | .host :: ts => hostStep (s.setTurns ts)
  | .reset :: ts => .next (s.setTurns ts).resetInput

/-- The state in which the very next step performs the word w: it is latched in PEND with the engine in RUN, as an issuing CMD
write leaves it (10_state.md R23), and the engine's turn comes first (log entry 6). Bits at `nbits` and above are 0. -/
def State.withFetchWord (s : State) (nbits w : Nat) : State := latchWord s (BitVec.ofNat 32 (w % 2 ^ nbits))

end Sys2Proof.Machine
end

