-- ==== Sys2Proof/Safety.lean ====
section
/-! DEFINITION. What a well-formed state is, what the end of a run is and what is observed there, in the terms claims use. -/

namespace Sys2Proof.Machine

/-- A CODE value the block writes: 0 to 9 but never 5 (60_exceptions.md R105, R110). -/
def legalCode (c : BitVec 4) : Bool := decide (c.toNat ≤ 9) && decide (c.toNat ≠ 5)

/-- Host variables in canonical form: numbers rising, no entry of value 0. -/
def HostAgent.varsWf (h : HostAgent) : Bool := risingFrom 0 h.vars && h.vars.all fun e => decide (e.2 ≠ 0)

/-- The invariant of the machine: legal parameters (00_scope.md R12), both buffers canonical and inside their sizes (20_memory.md R47), a
CODE the block can write (R105), host variables canonical. -/
def State.wf (s : State) : Bool :=
  s.cfg.wf && s.ibuf.wf && s.ibuf.within s.cfg.ibufSize && s.obuf.wf && s.obuf.within s.cfg.obufSize
    && legalCode s.errcode && s.host.varsWf

/-- The end of a run: the host program has stopped and STATUS.BUSY = 0 (70_reset_and_hazards.md R141). -/
def runEnded (s : State) : Bool := s.host.stopped && !s.busy

/-- What is observed at the end of a run (R141): the registers of 10_state.md R19 in offset order, the OBUF bytes, and the host's own
variables, its list of descriptors among them (43_stream.md R99). -/
structure Observation where
  regs : List Word
  obuf : Memory
  vars : List (Nat × Nat)
  list : List Descriptor
  deriving DecidableEq, Repr

/-- The observation of a state (R141). -/
def State.observe (s : State) : Observation :=
  { regs := allRegs.map s.readReg, obuf := s.obuf, vars := s.host.vars, list := s.host.list }

/-! ### Words the statements use -/

/-- The buffer holds a byte sequence at an offset, said byte by byte. -/
def Memory.Holds (m : Memory) (a : Nat) (bs : List Byte) : Prop := ∀ i (h : i < bs.length), m.read (a + i) = some bs[i]

/-- Every byte of an interval of n bytes has been written (10_state.md R39, 70_reset_and_hazards.md R132). -/
def Memory.Written (m : Memory) (a n : Nat) : Prop := ∀ i, i < n → m.read (a + i) ≠ none

/-- The errors a command can raise (60_exceptions.md R105 'raised by', R119). -/
def errsOf : Instr → List Err
  | .crcInit => []
  | .crcByte _ => []
  | .crcBuf => [.bufferRange]
  | .typeCheck => [.invalidChunkType]
  | .sigCheck => [.bufferRange, .fileTooShort, .invalidHeader]
  | .chunkDecode => [.bufferRange, .chunkTooShort, .chunkLengthInvalid, .invalidChunkType, .badChunkCrc]
  | .chunkNew => [.bufferRange, .invalidChunkType]
  | .chunkEncode => [.bufferRange, .invalidChunkType]
  | .sigEmit => [.bufferRange]

/-- Is the register an operand of the command (the table of 30_encoding.md R57)? -/
def operandOf : Instr → RegName → Bool
  | .crcInit, _ => false
  | .crcByte _, r => decide (r = .crcState)
  | .crcBuf, r => decide (r = .crcState) || decide (r = .chkDofs) || decide (r = .chkLen)
  | .typeCheck, r => decide (r = .chkType)
  | .sigCheck, r => decide (r = .inLen)
  | .chunkDecode, r => decide (r = .inLen) || decide (r = .inPtr)
  | .chunkNew, r => decide (r = .chkType) || decide (r = .chkDofs) || decide (r = .chkLen)
  | .chunkEncode, r =>
    decide (r = .chkType) || decide (r = .chkDofs) || decide (r = .chkLen) || decide (r = .chkCrc) || decide (r = .outPtr)
  | .sigEmit, r => decide (r = .outPtr)

/-- How many OBUF bytes a command writes from OUT_PTR on when it completes (20_memory.md R43). -/
def storedBytes (i : Instr) (s : State) : Nat :=
  match i with
  | .crcInit => 0
  | .crcByte _ => 0
  | .crcBuf => 0
  | .typeCheck => 0
  | .sigCheck => 0
  | .chunkDecode => 0
  | .chunkNew => 0
  | .chunkEncode => 12 + s.chkLen.toNat
  | .sigEmit => 8

/-- The bytes of a word, least significant first: `le32bytes` of 41_crc.md R74. -/
def le32bytes (v : Word) : List Byte :=
  [v.extractLsb' 0 8, v.extractLsb' 8 8, v.extractLsb' 16 8, v.extractLsb' 24 8]

/-- Commands performed one after another, with nothing between them. -/
def runCommands : List Instr → State → Result
  | [], s => .next s
  | i :: is, s =>
    match exec i s with
    | .next t => runCommands is t
    | .fault f => .fault f
    | .refused r => .refused r

/-- It is the engine's turn to perform the latched word, and `rest` is the plan of turns after it. -/
def engineMoves (s : State) (rest : List Agent) : Prop :=
  s.phase = .run ∧ (s.turns = .engine :: rest ∨ (s.turns = [] ∧ rest = []))

/-- It is the host's turn, it is running, `st` is the statement at its position, and `rest` is the plan of turns after it. -/
def hostMoves (s : State) (st : HStmt) (rest : List Agent) : Prop :=
  s.host.status = .running ∧ s.host.prog[s.host.pc]? = some st
    ∧ (s.turns = .host :: rest ∨ (s.turns = [] ∧ s.phase = .idle ∧ rest = []))

/-- k steps of the machine, stopping at the first fault or refusal. -/
def runSteps : Nat → State → Result
  | 0, s => .next s
  | k + 1, s =>
    match step s with
    | .next t => runSteps k t
    | .fault f => .fault f
    | .refused r => .refused r

end Sys2Proof.Machine
end

