-- ==== Sys2Proof/Certificates/Slice0/Obligations.lean ====
section
/-! DEFINITION. The statements for the provers. Each names the rule of spec/ it formalises, or says that it is derived. Expected states
are written out as record updates, so a statement of a result is a statement of the whole frame: every field that is not named is
unchanged. `s.ibuf.Holds a bs` and `read` speak of single bytes. -/

open Sys2Proof Sys2Proof.Machine

/-! ### Encoding -/

/-- R54: the nine word patterns of the opcode map select their commands, and no word with another opcode selects any. -/
def Obligations.OpcodeMapWordsDecode : Prop :=
  decode 0x00000001 = .ok .crcInit ∧ (∀ b : Byte, decode (BitVec.ofNat 32 (256 * b.toNat + 2)) = .ok (.crcByte b)) ∧
  decode 0x00000003 = .ok .crcBuf ∧ decode 0x00000010 = .ok .typeCheck ∧ decode 0x00000020 = .ok .sigCheck ∧
  decode 0x00000021 = .ok .chunkDecode ∧ decode 0x00000030 = .ok .chunkNew ∧ decode 0x00000031 = .ok .chunkEncode ∧
  decode 0x00000032 = .ok .sigEmit ∧
  ∀ (w : Word) (i : Instr), w.toNat % 256 ∉ [0x01, 0x02, 0x03, 0x10, 0x20, 0x21, 0x30, 0x31, 0x32] → decode w ≠ .ok i

/-- Derived from R53 to R55: decode and encode agree in both directions, over all 2^32 words. -/
def Obligations.DecodeIffEncode : Prop :=
  ∀ (w : Word) (i : Instr), decode w = .ok i ↔ w = encode i

/-- R55 and R113: the checks in the spec's order over the word's number, and what an illegal word performs. -/
def Obligations.DecodeChecksInOrder : Prop :=
  (∀ w : Word, w.toNat / 65536 ≠ 0 → decode w = .error .rsvNonzero) ∧
  (∀ w : Word, w.toNat / 65536 = 0 → w.toNat % 256 ∉ assignedOpcodes → decode w = .error .unassignedOpcode) ∧
  (∀ w : Word, w.toNat / 65536 = 0 → w.toNat % 256 ∈ assignedOpcodes → w.toNat % 256 ≠ 2 → w.toNat / 256 % 256 ≠ 0 →
    decode w = .error .immNonzero) ∧
  (∀ w : Word, w.toNat / 65536 = 0 → w.toNat % 256 ∈ assignedOpcodes → (w.toNat % 256 = 2 ∨ w.toNat / 256 % 256 = 0) →
    ∃ i, decode w = .ok i ∧ (opcodeOf i).toNat = w.toNat % 256 ∧ (immOf i).toNat = w.toNat / 256 % 256) ∧
  (∀ (s : State) (rest : List Agent) (e : DecodeError), engineMoves s rest → decode s.pend = .error e →
    step s = .next { s with turns := rest, errcode := 8, phase := .idle })

/-! ### The engine's step -/

/-- Derived from R56: when the latched word is a command and the engine moves, the step is exec of that command, with the plan of
turns advanced and nothing else around it. -/
def Obligations.StepRunsDecodedCommand : Prop :=
  ∀ (s : State) (i : Instr) (rest : List Agent), engineMoves s rest → decode s.pend = .ok i → step s = exec i (s.setTurns rest)

/-- The model's choice (log entry 6): `withFetchWord` places a command so that the very next step performs it. -/
def Obligations.FetchWordRunsCommand : Prop :=
  ∀ (s : State) (i : Instr),
    step (s.withFetchWord 32 (encode i).toNat) = exec i { s with phase := .run, pend := encode i }

/-- Derived from R56 and R104: the engine's step ends in IDLE with either code 0, or the code of an error and nothing else written. -/
def Obligations.EngineStepCompletesOrRaises : Prop :=
  ∀ (s t : State) (rest : List Agent), engineMoves s rest → step s = .next t →
    t.phase = .idle ∧ t.turns = rest ∧
    (t.errcode = 0 ∨ ∃ e : Err, e.code ≠ 0 ∧ t = { s with turns := rest, errcode := e.code, phase := .idle })

/-- R140 without time, over the plan of turns of log entry 5: BUSY falls after finitely many turns, unless the run stops first; and with
no reset planned it falls because the engine performs the latched word, over the block's state as it was, only OVERRUN, the host and the
model's own fields having moved (R133, R134). -/
def Obligations.IssuedCommandIsPerformed : Prop :=
  (∀ s : State, s.phase = .run → ∃ k, k ≤ s.turns.length + 1 ∧
    ((∃ t, runSteps k s = .next t ∧ t.phase = .idle) ∨ (∃ f, runSteps k s = .fault f) ∨ ∃ r, runSteps k s = .refused r)) ∧
  (∀ s : State, s.phase = .run → .reset ∉ s.turns → ∃ k, k ≤ s.turns.length ∧
    ((∃ u rest, runSteps k s = .next u ∧ engineMoves u rest ∧ step u = performPend (u.setTurns rest) ∧
        u = { s with overrun := u.overrun, host := u.host, draws := u.draws, turns := u.turns }) ∨
      (∃ f, runSteps k s = .fault f) ∨ ∃ r, runSteps k s = .refused r))

/-! ### The CRC commands -/

/-- R75. CRC_VALUE becomes 0. -/
def Obligations.CrcInitResult : Prop :=
  encode .crcInit = 0x00000001 ∧
  ∀ s : State, ∃ t, exec .crcInit s = .next t ∧ t = { s with crcState := 0xFFFFFFFF, errcode := 0, phase := .idle } ∧
    t.readReg .crcValue = 0

/-- R76, with the rule's own corner values. -/
def Obligations.CrcByteResult : Prop :=
  (∀ b : Byte, encode (.crcByte b) = BitVec.ofNat 32 (256 * b.toNat + 2)) ∧
  (∀ (s : State) (b : Byte),
    exec (.crcByte b) s = .next { s with crcState := crcStep8 s.crcState b, errcode := 0, phase := .idle }) ∧
  crcStep8 0xFFFFFFFF 0x00 = 0x2DFD1072 ∧ crcStep8 0 0x00 = 0 ∧ crcStep8 0 0x01 = 0x77073096 ∧
  crcStep8 0 0x80 = 0xEDB88320 ∧ crcStep8 0 0xFF = 0x2D02EF8D ∧ crcStep8 0xFFFFFFFF 0xFF = 0x00FFFFFF ∧
  crcStep8 0xFFFFFFFF 0x31 = 0x7C231048

/-- R72: the bit-serial round, bit 0 of x first, and the second form the rule says is the same. -/
def Obligations.CrcStepTwoForms : Prop :=
  ∀ (c : Word) (x : Byte),
    crcStep8 c x
      = (List.range 8).foldl (fun (c : Word) (k : Nat) => (c >>> 1) ^^^ (if c.getLsbD 0 != x.getLsbD k then 0xEDB88320 else 0)) c ∧
    crcStep8 c x
      = (fun c : Word => (c >>> 1) ^^^ (if c.getLsbD 0 then 0xEDB88320 else 0))^[8] (c ^^^ x.zeroExtend 32)

/-- Derived from R74: one step is linear over GF(2). -/
def Obligations.CrcStepLinear : Prop :=
  ∀ (c₁ c₂ : Word) (x₁ x₂ : Byte), crcStep8 (c₁ ^^^ c₂) (x₁ ^^^ x₂) = crcStep8 c₁ x₁ ^^^ crcStep8 c₂ x₂

/-- Derived from R74: the residue, for every byte sequence. -/
def Obligations.CrcResidue : Prop :=
  ∀ bs : List Byte, crc32 (bs ++ le32bytes (crc32 bs)) = 0x2144DF1C

/-- Derived from R74: a single-bit change always changes the CRC. -/
def Obligations.SingleBitFlipChangesCrc : Prop :=
  ∀ (pre post : List Byte) (x : Byte) (k : Nat), k < 8 →
    crc32 (pre ++ (x ^^^ BitVec.twoPow 8 k) :: post) ≠ crc32 (pre ++ x :: post)

/-- R77: the range check with an exact sum, then the fold of the run into CRC_STATE. -/
def Obligations.CrcBufResult : Prop :=
  encode .crcBuf = 0x00000003 ∧
  (∀ s : State, s.cfg.ibufSize < s.chkDofs.toNat + s.chkLen.toNat →
    exec .crcBuf s = .next { s with errcode := 9, phase := .idle }) ∧
  (∀ (s : State) (d : List Byte), s.chkDofs.toNat + s.chkLen.toNat ≤ s.cfg.ibufSize → d.length = s.chkLen.toNat →
    s.ibuf.Holds s.chkDofs.toNat d →
    exec .crcBuf s = .next { s with crcState := d.foldl crcStep8 s.crcState, errcode := 0, phase := .idle })

/-- Derived from R76 and R77: CRC_BUF over a run is CRC_BYTE over its bytes in order. -/
def Obligations.CrcBufEqualsCrcBytes : Prop :=
  ∀ (s t : State), exec .crcBuf s = .next t → t.errcode = 0 →
    ∃ d : List Byte, d.length = s.chkLen.toNat ∧ s.ibuf.Holds s.chkDofs.toNat d ∧
      ∃ u, runCommands (d.map .crcByte) s = .next u ∧ u.crcState = t.crcState

/-- R35: CRC_VALUE is NOT CRC_STATE at every instant and read-only at offset 0x30, it is the CRC of the bytes fed since CRC_INIT, and 0
at reset. -/
def Obligations.CrcValueIsCrcOfBytesFed : Prop :=
  (∀ (s : State) (v : Word), s.phase = .idle →
    hostRead 0x30 32 s = .next (~~~ s.crcState, s) ∧ hostWrite 0x30 32 v s = .next s) ∧
  (∀ s : State, s.readReg .crcValue = ~~~ s.readReg .crcState) ∧
  (∀ (s : State) (bs : List Byte), ∃ t, runCommands (.crcInit :: bs.map .crcByte) s = .next t ∧ t.readReg .crcValue = crc32 bs ∧
    t = { s with crcState := t.crcState, errcode := 0, phase := .idle }) ∧
  ∀ c : Config, (State.resetWith c).readReg .crcValue = 0

/-! ### The type code -/

/-- R70: TYPE_CHECK completes exactly on four ASCII letters. -/
def Obligations.TypeCheckResult : Prop :=
  encode .typeCheck = 0x00000010 ∧
  (∀ s : State, (∀ b ∈ be32bytes s.chkType, (0x41 ≤ b.toNat ∧ b.toNat ≤ 0x5A) ∨ (0x61 ≤ b.toNat ∧ b.toNat ≤ 0x7A)) →
    exec .typeCheck s = .next { s with errcode := 0, phase := .idle }) ∧
  (∀ s : State, (∃ b ∈ be32bytes s.chkType, ¬ ((0x41 ≤ b.toNat ∧ b.toNat ≤ 0x5A) ∨ (0x61 ≤ b.toNat ∧ b.toNat ≤ 0x7A))) →
    exec .typeCheck s = .next { s with errcode := 1, phase := .idle })

/-- R26: the bits of TSTAT as a function of CHK_TYPE alone, the reserved bits 0, read-only at offset 0x0C, and its reset value. -/
def Obligations.TstatBits : Prop :=
  (∀ (s : State) (v : Word), s.phase = .idle →
    hostRead 0x0C 32 s = .next (s.readReg .tstat, s) ∧ hostWrite 0x0C 32 v s = .next s) ∧
  (∀ s : State,
    ((s.readReg .tstat).getLsbD 0 = true ↔
      ∀ b ∈ be32bytes s.chkType, (0x41 ≤ b.toNat ∧ b.toNat ≤ 0x5A) ∨ (0x61 ≤ b.toNat ∧ b.toNat ≤ 0x7A)) ∧
    (s.readReg .tstat).getLsbD 1 = !s.chkType.getLsbD 29 ∧ (s.readReg .tstat).getLsbD 2 = !s.chkType.getLsbD 21 ∧
    (s.readReg .tstat).getLsbD 3 = !s.chkType.getLsbD 13 ∧ (s.readReg .tstat).getLsbD 4 = s.chkType.getLsbD 5 ∧
    ∀ k, 5 ≤ k → (s.readReg .tstat).getLsbD k = false) ∧
  ∀ c : Config, (State.resetWith c).readReg .tstat = 0x0000000E

/-! ### The signature -/

/-- R96 and R97: SIG_CHECK's checks in order, then IN_PTR <- 8. -/
def Obligations.SigCheckResult : Prop :=
  encode .sigCheck = 0x00000020 ∧
  (∀ s : State, s.cfg.ibufSize < s.inLen.toNat → exec .sigCheck s = .next { s with errcode := 9, phase := .idle }) ∧
  (∀ s : State, s.inLen.toNat ≤ s.cfg.ibufSize → s.inLen.toNat < 8 →
    exec .sigCheck s = .next { s with errcode := 7, phase := .idle }) ∧
  (∀ (s : State) (bs : List Byte), s.inLen.toNat ≤ s.cfg.ibufSize → 8 ≤ s.inLen.toNat → bs.length = 8 → s.ibuf.Holds 0 bs →
    bs ≠ [0x89, 0x50, 0x4E, 0x47, 0x0D, 0x0A, 0x1A, 0x0A] →
    exec .sigCheck s = .next { s with errcode := 6, phase := .idle }) ∧
  (∀ s : State, s.inLen.toNat ≤ s.cfg.ibufSize → 8 ≤ s.inLen.toNat →
    s.ibuf.Holds 0 [0x89, 0x50, 0x4E, 0x47, 0x0D, 0x0A, 0x1A, 0x0A] →
    exec .sigCheck s = .next { s with inPtr := 8, errcode := 0, phase := .idle })

/-- R98: SIG_EMIT stores at OUT_PTR and advances it mod 2^32, or raises BufferRange. -/
def Obligations.SigEmitResult : Prop :=
  encode .sigEmit = 0x00000032 ∧
  (∀ s : State, s.cfg.obufSize < s.outPtr.toNat + 8 → exec .sigEmit s = .next { s with errcode := 9, phase := .idle }) ∧
  (∀ s : State, s.outPtr.toNat + 8 ≤ s.cfg.obufSize →
    ∃ m : Memory, exec .sigEmit s
        = .next { s with obuf := m, outPtr := BitVec.ofNat 32 (s.outPtr.toNat + 8), errcode := 0, phase := .idle } ∧
      m.Holds s.outPtr.toNat [0x89, 0x50, 0x4E, 0x47, 0x0D, 0x0A, 0x1A, 0x0A] ∧
      ∀ a, (a < s.outPtr.toNat ∨ s.outPtr.toNat + 8 ≤ a) → m.read a = s.obuf.read a)

/-! ### Chunk frames -/

/-- R87: a good frame at IN_PTR is decoded, and exactly these registers are written. -/
def Obligations.DecodeAcceptsGoodFrame : Prop :=
  ∀ (s : State) (len t : Word) (d : List Byte), d.length = len.toNat → letters t = true →
    s.inLen.toNat ≤ s.cfg.ibufSize → s.inPtr.toNat + 12 + len.toNat ≤ s.inLen.toNat →
    s.ibuf.Holds s.inPtr.toNat (be32bytes len ++ be32bytes t ++ d ++ be32bytes (crcChunk t d)) →
    ∃ u, exec .chunkDecode s = .next u ∧
      u = { s with chkLen := len, chkType := t, chkDofs := u.chkDofs, chkCrc := crcChunk t d, inPtr := u.inPtr,
                   errcode := 0, phase := .idle } ∧
      u.chkDofs.toNat = s.inPtr.toNat + 8 ∧ u.inPtr.toNat = s.inPtr.toNat + 12 + len.toNat

/-- R82: the checks of CHUNK_DECODE from first to last; the first that fails decides, and the raise writes nothing else. -/
def Obligations.DecodeRaisesInOrder : Prop :=
  (∀ s : State, (s.cfg.ibufSize < s.inLen.toNat ∨ s.inLen.toNat < s.inPtr.toNat) →
    exec .chunkDecode s = .next { s with errcode := 9, phase := .idle }) ∧
  (∀ s : State, s.inLen.toNat ≤ s.cfg.ibufSize → s.inPtr.toNat ≤ s.inLen.toNat → s.inLen.toNat - s.inPtr.toNat < 12 →
    exec .chunkDecode s = .next { s with errcode := 2, phase := .idle }) ∧
  (∀ (s : State) (len : Word), s.inLen.toNat ≤ s.cfg.ibufSize → s.inPtr.toNat + 12 ≤ s.inLen.toNat →
    s.ibuf.Holds s.inPtr.toNat (be32bytes len) → s.inLen.toNat - s.inPtr.toNat < len.toNat + 12 →
    exec .chunkDecode s = .next { s with errcode := 3, phase := .idle }) ∧
  (∀ (s : State) (len t : Word), s.inLen.toNat ≤ s.cfg.ibufSize → s.inPtr.toNat + 12 + len.toNat ≤ s.inLen.toNat →
    s.ibuf.Holds s.inPtr.toNat (be32bytes len ++ be32bytes t) → letters t = false →
    exec .chunkDecode s = .next { s with errcode := 1, phase := .idle }) ∧
  (∀ (s : State) (len t c : Word) (d : List Byte), d.length = len.toNat → s.inLen.toNat ≤ s.cfg.ibufSize →
    s.inPtr.toNat + 12 + len.toNat ≤ s.inLen.toNat →
    s.ibuf.Holds s.inPtr.toNat (be32bytes len ++ be32bytes t ++ d ++ be32bytes c) → letters t = true → crcChunk t d ≠ c →
    exec .chunkDecode s = .next { s with errcode := 4, phase := .idle })

/-- R82 to R86: each of the five errors of CHUNK_DECODE is raised exactly when its condition holds and no earlier one does. -/
def Obligations.DecodeErrorsExactlyWhen : Prop :=
  ∀ (s u : State), exec .chunkDecode s = .next u →
    (u.errcode = 9 ↔ s.cfg.ibufSize < s.inLen.toNat ∨ s.inLen.toNat < s.inPtr.toNat) ∧
    (u.errcode = 2 ↔ s.inLen.toNat ≤ s.cfg.ibufSize ∧ s.inPtr.toNat ≤ s.inLen.toNat ∧ s.inLen.toNat - s.inPtr.toNat < 12) ∧
    (u.errcode = 3 ↔ s.inLen.toNat ≤ s.cfg.ibufSize ∧ s.inPtr.toNat + 12 ≤ s.inLen.toNat ∧
      ∃ len : Word, s.ibuf.Holds s.inPtr.toNat (be32bytes len) ∧ s.inLen.toNat - s.inPtr.toNat < len.toNat + 12) ∧
    (u.errcode = 1 ↔ s.inLen.toNat ≤ s.cfg.ibufSize ∧
      ∃ len t : Word, s.ibuf.Holds s.inPtr.toNat (be32bytes len ++ be32bytes t) ∧
        s.inPtr.toNat + 12 + len.toNat ≤ s.inLen.toNat ∧ letters t = false) ∧
    (u.errcode = 4 ↔ s.inLen.toNat ≤ s.cfg.ibufSize ∧
      ∃ (len t c : Word) (d : List Byte), d.length = len.toNat ∧
        s.ibuf.Holds s.inPtr.toNat (be32bytes len ++ be32bytes t ++ d ++ be32bytes c) ∧
        s.inPtr.toNat + 12 + len.toNat ≤ s.inLen.toNat ∧ letters t = true ∧ crcChunk t d ≠ c)

/-- Derived from R88: when the input `IBUF[0 .. IN_LEN-1]` is written, CHUNK_DECODE ends; and no byte at or past IN_LEN is read: two states
that agree on the input, IN_LEN, IN_PTR and the parameters end alike. -/
def Obligations.DecodeReadsOnlyTheInput : Prop :=
  (∀ s : State, s.ibuf.Written 0 s.inLen.toNat → ∃ t, exec .chunkDecode s = .next t) ∧
  (∀ s₁ s₂ : State, s₁.cfg = s₂.cfg → s₁.inLen = s₂.inLen → s₁.inPtr = s₂.inPtr →
    (∀ a, a < s₁.inLen.toNat → s₁.ibuf.read a = s₂.ibuf.read a) →
    (∀ t₁ : State, exec .chunkDecode s₁ = .next t₁ →
      (t₁.errcode ≠ 0 → exec .chunkDecode s₂ = .next { s₂ with errcode := t₁.errcode, phase := .idle }) ∧
      (t₁.errcode = 0 → exec .chunkDecode s₂ = .next { s₂ with
        chkLen := t₁.chkLen, chkType := t₁.chkType, chkDofs := t₁.chkDofs, chkCrc := t₁.chkCrc, inPtr := t₁.inPtr,
        errcode := 0, phase := .idle })) ∧
    ∀ f : Fault, exec .chunkDecode s₁ = .fault f → exec .chunkDecode s₂ = .fault f)

/-- Derived from R100: a successful decode advances IN_PTR by at least 12 and keeps it at most IN_LEN. -/
def Obligations.DecodeAdvances : Prop :=
  ∀ (s t : State), exec .chunkDecode s = .next t → t.errcode = 0 →
    s.inPtr.toNat + 12 ≤ t.inPtr.toNat ∧ t.inPtr.toNat ≤ t.inLen.toNat ∧ t.inLen = s.inLen

/-- R89: CHUNK_NEW, its range check before its type check. -/
def Obligations.ChunkNewResult : Prop :=
  encode .chunkNew = 0x00000030 ∧
  (∀ s : State, s.cfg.ibufSize < s.chkDofs.toNat + s.chkLen.toNat →
    exec .chunkNew s = .next { s with errcode := 9, phase := .idle }) ∧
  (∀ s : State, s.chkDofs.toNat + s.chkLen.toNat ≤ s.cfg.ibufSize → letters s.chkType = false →
    exec .chunkNew s = .next { s with errcode := 1, phase := .idle }) ∧
  (∀ (s : State) (d : List Byte), s.chkDofs.toNat + s.chkLen.toNat ≤ s.cfg.ibufSize → letters s.chkType = true →
    d.length = s.chkLen.toNat → s.ibuf.Holds s.chkDofs.toNat d →
    exec .chunkNew s = .next { s with chkCrc := crcChunk s.chkType d, errcode := 0, phase := .idle })

/-- R91: CHUNK_ENCODE, its checks in order, the frame with the stored CRC at OUT_PTR, OUT_PTR advanced mod 2^32. -/
def Obligations.ChunkEncodeResult : Prop :=
  encode .chunkEncode = 0x00000031 ∧
  (∀ s : State, (s.cfg.ibufSize < s.chkDofs.toNat + s.chkLen.toNat ∨ s.cfg.obufSize < s.outPtr.toNat + 12 + s.chkLen.toNat) →
    exec .chunkEncode s = .next { s with errcode := 9, phase := .idle }) ∧
  (∀ s : State, s.chkDofs.toNat + s.chkLen.toNat ≤ s.cfg.ibufSize → s.outPtr.toNat + 12 + s.chkLen.toNat ≤ s.cfg.obufSize →
    letters s.chkType = false → exec .chunkEncode s = .next { s with errcode := 1, phase := .idle }) ∧
  (∀ (s : State) (d : List Byte), s.chkDofs.toNat + s.chkLen.toNat ≤ s.cfg.ibufSize →
    s.outPtr.toNat + 12 + s.chkLen.toNat ≤ s.cfg.obufSize → letters s.chkType = true → d.length = s.chkLen.toNat →
    s.ibuf.Holds s.chkDofs.toNat d →
    ∃ m : Memory, exec .chunkEncode s
        = .next { s with obuf := m, outPtr := BitVec.ofNat 32 (s.outPtr.toNat + 12 + s.chkLen.toNat), errcode := 0, phase := .idle } ∧
      m.Holds s.outPtr.toNat (be32bytes s.chkLen ++ be32bytes s.chkType ++ d ++ be32bytes s.chkCrc) ∧
      ∀ a, (a < s.outPtr.toNat ∨ s.outPtr.toNat + 12 + s.chkLen.toNat ≤ a) → m.read a = s.obuf.read a)

/-- R93: a decoded frame encoded again at q is byte-identical to its source bytes. -/
def Obligations.ChunkRoundTrip : Prop :=
  ∀ (s t : State) (q : Word), exec .chunkDecode s = .next t → t.errcode = 0 →
    q.toNat + 12 + t.chkLen.toNat ≤ s.cfg.obufSize →
    ∃ u, exec .chunkEncode { t with outPtr := q } = .next u ∧ u.errcode = 0 ∧
      ∀ i, i < 12 + t.chkLen.toNat → u.obuf.read (q.toNat + i) = s.ibuf.read (s.inPtr.toNat + i)

/-- Derived from R74, R82 and R86 (95_test_vectors.md T1.5): after a successful decode, flipping one bit of the payload in IBUF makes
the decode of the same frame raise BadChunkCrc. -/
def Obligations.FlippedPayloadBitIsCaught : Prop :=
  ∀ (s t : State) (i k : Nat) (b : Byte), exec .chunkDecode s = .next t → t.errcode = 0 → i < t.chkLen.toNat → k < 8 →
    s.ibuf.read (s.inPtr.toNat + 8 + i) = some b →
    exec .chunkDecode { s with ibuf := s.ibuf.write (s.inPtr.toNat + 8 + i) (b ^^^ BitVec.twoPow 8 k) }
      = .next { s with ibuf := s.ibuf.write (s.inPtr.toNat + 8 + i) (b ^^^ BitVec.twoPow 8 k), errcode := 4, phase := .idle }

/-! ### All commands -/

/-- R120, for every command and for an illegal word: a raise writes the code and STATUS.BUSY and nothing else. -/
def Obligations.RaiseWritesOnlyTheCode : Prop :=
  (∀ (i : Instr) (s t : State), exec i s = .next t → t.errcode ≠ 0 → t = { s with errcode := t.errcode, phase := .idle }) ∧
  (∀ (s t : State) (rest : List Agent), engineMoves s rest → step s = .next t → t.errcode ≠ 0 →
    t = { s with turns := rest, errcode := t.errcode, phase := .idle })

/-- Derived from R105 and R119: a command ends with code 0 or with the code of an error in its own list; codes 5 and 10 to 15 never. -/
def Obligations.CodesOfEachCommand : Prop :=
  ∀ (i : Instr) (s t : State), exec i s = .next t →
    (t.errcode = 0 ∨ ∃ e ∈ errsOf i, t.errcode = e.code) ∧ t.errcode ≠ 5 ∧ t.errcode.toNat ≤ 9

/-- Derived from the 'written by engine command' column of R19 and from R43: the frame of every command. IBUF, IN_LEN, PEND, OVERRUN, the host
and the parameters never change; a register outside the command's column reads as before; OBUF changes only in the interval R43 gives. -/
def Obligations.CommandFrame : Prop :=
  ∀ (i : Instr) (s t : State), exec i s = .next t →
    (∀ r : RegName, writtenBy i r = false → t.readReg r = s.readReg r) ∧
    t.ibuf = s.ibuf ∧ t.inLen = s.inLen ∧ t.pend = s.pend ∧ t.overrun = s.overrun ∧ t.host = s.host ∧ t.cfg = s.cfg ∧
    t.draws = s.draws ∧ t.turns = s.turns ∧
    ∀ a, (a < s.outPtr.toNat ∨ s.outPtr.toNat + storedBytes i s ≤ a) → t.obuf.read a = s.obuf.read a

/-- Derived from the operand table of R57 and from R36 and R43: a command's outcome and everything it writes depend on its operand
registers, IBUF and the parameters alone, so on no flag, no other register and no OBUF byte. -/
def Obligations.CommandReadsOnlyItsOperands : Prop :=
  ∀ (i : Instr) (s₁ s₂ t₁ : State), s₁.cfg = s₂.cfg → s₁.ibuf = s₂.ibuf →
    (∀ r : RegName, operandOf i r = true → s₁.readReg r = s₂.readReg r) → exec i s₁ = .next t₁ →
    ∃ t₂, exec i s₂ = .next t₂ ∧ t₂.errcode = t₁.errcode ∧
      (t₁.errcode = 0 → (∀ r : RegName, r ≠ .status → writtenBy i r = true → t₂.readReg r = t₁.readReg r) ∧
        ∀ a, s₁.outPtr.toNat ≤ a → a < s₁.outPtr.toNat + storedBytes i s₁ → t₂.obuf.read a = t₁.obuf.read a)

/-- Derived from R39 and R132: once every byte of IBUF has been written, every command ends in a next state from every state. -/
def Obligations.CommandsEndOnWrittenInput : Prop :=
  ∀ (i : Instr) (s : State), s.ibuf.Written 0 s.cfg.ibufSize → ∃ t, exec i s = .next t

/-- Derived from R39, R43 and R81: a command that passes the checks before it and has an unwritten byte in the interval it then reads ends
in the fault UnwrittenRead (the whole interval counts: log entry 15), and so does a host read of an unwritten byte at any time, but for
an OBUF byte in the output interval of the command in progress (log entry 12). -/
def Obligations.UnwrittenReadFaults : Prop :=
  (∀ (s : State) (k : Nat), s.chkDofs.toNat + s.chkLen.toNat ≤ s.cfg.ibufSize → k < s.chkLen.toNat →
    s.ibuf.read (s.chkDofs.toNat + k) = none →
    exec .crcBuf s = .fault .unwrittenRead ∧
    (letters s.chkType = true → exec .chunkNew s = .fault .unwrittenRead ∧
      (s.outPtr.toNat + 12 + s.chkLen.toNat ≤ s.cfg.obufSize → exec .chunkEncode s = .fault .unwrittenRead))) ∧
  (∀ (s : State) (k : Nat), s.inLen.toNat ≤ s.cfg.ibufSize → 8 ≤ s.inLen.toNat → k < 8 → s.ibuf.read k = none →
    exec .sigCheck s = .fault .unwrittenRead) ∧
  (∀ (s : State) (k : Nat), s.inLen.toNat ≤ s.cfg.ibufSize → s.inPtr.toNat + 12 ≤ s.inLen.toNat → k < 4 →
    s.ibuf.read (s.inPtr.toNat + k) = none → exec .chunkDecode s = .fault .unwrittenRead) ∧
  (∀ (s : State) (len : Word) (k : Nat), s.inLen.toNat ≤ s.cfg.ibufSize → s.inPtr.toNat + 12 + len.toNat ≤ s.inLen.toNat →
    s.ibuf.Holds s.inPtr.toNat (be32bytes len) → k < 4 → s.ibuf.read (s.inPtr.toNat + 4 + k) = none →
    exec .chunkDecode s = .fault .unwrittenRead) ∧
  (∀ (s : State) (len t : Word) (k : Nat), s.inLen.toNat ≤ s.cfg.ibufSize → s.inPtr.toNat + 12 + len.toNat ≤ s.inLen.toNat →
    s.ibuf.Holds s.inPtr.toNat (be32bytes len ++ be32bytes t) → letters t = true → k < len.toNat + 4 →
    s.ibuf.read (s.inPtr.toNat + 8 + k) = none → exec .chunkDecode s = .fault .unwrittenRead) ∧
  (∀ (s : State) (buf : Buffer) (a : Nat), a < s.bufSize buf → (s.bufOf buf).read a = none →
    (buf = .obuf → s.phase = .run → ∀ i, decode s.pend = .ok i → a < s.outPtr.toNat ∨ s.outPtr.toNat + storedBytes i s ≤ a) →
    hostReadByte buf a s = .fault .unwrittenRead)

/-! ### The host port -/

/-- R23: an issuing CMD write, a dropped one, the performance of the word, and a read of CMD. -/
def Obligations.CmdWriteIssuesOrIsDropped : Prop :=
  (∀ (s : State) (w : Word), s.phase = .idle →
    hostWrite 0x00 32 w s = .next { s with phase := .run, overrun := false, pend := w }) ∧
  (∀ (s : State) (w : Word), s.phase = .run → hostWrite 0x00 32 w s = .next { s with overrun := true }) ∧
  (∀ (s t : State) (w : Word) (rest : List Agent), s.phase = .idle → hostWrite 0x00 32 w s = .next t → engineMoves t rest →
    (∀ i, decode w = .ok i → step t = exec i (t.setTurns rest)) ∧
    (∀ e, decode w = .error e → step t = .next { t with turns := rest, errcode := 8, phase := .idle })) ∧
  (∀ s : State, hostRead 0x00 32 s = .next (0x00000000, s))

/-- R24: the fields of STATUS, how OVERRUN is set and cleared, and the reset value. That a write to a read-only register while busy
sets OVERRUN too is the model's reading of 'any register' (log entry 10). -/
def Obligations.StatusFields : Prop :=
  (∀ s : State, s.phase = .idle → ∃ v, hostRead 0x04 32 s = .next (v, s) ∧ v.getLsbD 0 = false ∧
    (v.getLsbD 1 = true ↔ s.errcode ≠ 0) ∧ (v.getLsbD 2 = true ↔ s.inPtr = s.inLen) ∧ v.getLsbD 3 = s.overrun ∧
    ∀ k, 4 ≤ k → v.getLsbD k = false) ∧
  (∀ (s : State) (v : Word), v.getLsbD 3 = true → hostWrite 0x04 32 v s = .next { s with overrun := false }) ∧
  (∀ (s : State) (v : Word), v.getLsbD 3 = false → hostWrite 0x04 32 v s = .next s) ∧
  (∀ (s : State) (r : RegName) (v : Word), s.phase = .run → r ≠ .status →
    hostWrite r.offset 32 v s = .next { s with overrun := true }) ∧
  (∀ c : Config, hostRead 0x04 32 (State.resetWith c) = .next (0x00000004, State.resetWith c))

/-- R20: only aligned 32-bit accesses have a meaning; idle, a read-only register ignores a write and a RW register takes any value and
reads it back, and nothing else changes but the fields that follow it; of STATUS no field but OVERRUN takes a write. -/
def Obligations.RegisterWrites : Prop :=
  (∀ (s : State) (off width : Nat) (v : Word), off < 0x40 → (width ≠ 32 ∨ off % 4 ≠ 0) →
    hostRead off width s = .fault .hostBadRegAccess ∧ hostWrite off width v s = .fault .hostBadRegAccess) ∧
  (∀ (s : State) (r : RegName) (v : Word), s.phase = .idle → r.access = .ro → hostWrite r.offset 32 v s = .next s) ∧
  (∀ (s : State) (v : Word), ∃ o : Bool, hostWrite RegName.status.offset 32 v s = .next { s with overrun := o }) ∧
  (∀ (s : State) (r : RegName) (v : Word), s.phase = .idle → r.access = .rw →
    ∃ t, hostWrite r.offset 32 v s = .next t ∧ hostRead r.offset 32 t = .next (v, t) ∧
      (∀ r' : RegName, r' ≠ r → r'.access = .rw → t.readReg r' = s.readReg r') ∧
      t.phase = .idle ∧ t.pend = s.pend ∧ t.overrun = s.overrun ∧ t.errcode = s.errcode ∧ t.ibuf = s.ibuf ∧ t.obuf = s.obuf ∧
      t.host = s.host ∧ t.cfg = s.cfg ∧ t.draws = s.draws ∧ t.turns = s.turns)

/-- Derived from the offset and access columns of R19, and from R20, R23, R25, R26 and R35: at each literal offset, what an idle 32-bit
read answers and what an idle write does. ERRCODE reads CODE zero-extended: as a number it is below 16. -/
def Obligations.RegisterMap : Prop :=
  ∀ (s : State) (v : Word), s.phase = .idle →
    hostRead 0x00 32 s = .next (0x00000000, s) ∧
    (hostRead 0x04 32 s = .next (s.readReg .status, s)) ∧
    (∃ e : Word, hostRead 0x08 32 s = .next (e, s) ∧ e.toNat = s.errcode.toNat ∧ hostWrite 0x08 32 v s = .next s) ∧
    (hostRead 0x0C 32 s = .next (s.readReg .tstat, s) ∧ hostWrite 0x0C 32 v s = .next s) ∧
    (hostRead 0x10 32 s = .next (s.inLen, s) ∧ hostWrite 0x10 32 v s = .next { s with inLen := v }) ∧
    (hostRead 0x14 32 s = .next (s.inPtr, s) ∧ hostWrite 0x14 32 v s = .next { s with inPtr := v }) ∧
    (hostRead 0x18 32 s = .next (s.outPtr, s) ∧ hostWrite 0x18 32 v s = .next { s with outPtr := v }) ∧
    (hostRead 0x1C 32 s = .next (s.chkLen, s) ∧ hostWrite 0x1C 32 v s = .next { s with chkLen := v }) ∧
    (hostRead 0x20 32 s = .next (s.chkType, s) ∧ hostWrite 0x20 32 v s = .next { s with chkType := v }) ∧
    (hostRead 0x24 32 s = .next (s.chkDofs, s) ∧ hostWrite 0x24 32 v s = .next { s with chkDofs := v }) ∧
    (hostRead 0x28 32 s = .next (s.chkCrc, s) ∧ hostWrite 0x28 32 v s = .next { s with chkCrc := v }) ∧
    (hostRead 0x2C 32 s = .next (s.crcState, s) ∧ hostWrite 0x2C 32 v s = .next { s with crcState := v }) ∧
    (hostRead 0x30 32 s = .next (~~~ s.crcState, s) ∧ hostWrite 0x30 32 v s = .next s)

/-- Derived from R21: reserved offsets read 0 and ignore writes at any time (that they set no OVERRUN is log entry 10); an access
at offset 0x40 or above gets no result from this model. -/
def Obligations.ReservedOffsets : Prop :=
  (∀ (s : State) (off : Nat) (v : Word), 0x34 ≤ off → off < 0x40 → off % 4 = 0 →
    hostRead off 32 s = .next (0x00000000, s) ∧ hostWrite off 32 v s = .next s) ∧
  (∀ (s : State) (off width : Nat) (v : Word), 0x40 ≤ off →
    hostRead off width s = .refused .outsideWindow ∧ hostWrite off width v s = .refused .outsideWindow)

/-- Derived from R46: a host read has no side effect on anything the spec names; while idle it changes nothing at all. -/
def Obligations.HostReadsHaveNoSideEffect : Prop :=
  (∀ (s t : State) (off width : Nat) (v : Word), hostRead off width s = .next (v, t) →
    t = { s with draws := t.draws } ∧ (s.phase = .idle → t = s)) ∧
  (∀ (s t : State) (buf : Buffer) (a : Nat) (b : Byte), hostReadByte buf a s = .next (b, t) →
    t = { s with draws := t.draws } ∧ (s.phase = .idle → t = s))

/-- Derived from R135: what reads exactly while busy. That during an illegal word every register but ERRCODE and STATUS does is log entry
13, that EOS does unless the command may write IN_PTR is log entry 11, that an OBUF byte outside the output interval does is log entry
12: R135 does not list OBUF bytes. -/
def Obligations.BusyReadsThatAreExact : Prop :=
  (∀ (s : State) (i : Instr) (r : RegName), s.phase = .run → decode s.pend = .ok i → writtenBy i r = false →
    hostRead r.offset 32 s = .next (s.readReg r, s)) ∧
  (∀ (s : State) (e : DecodeError) (r : RegName), s.phase = .run → decode s.pend = .error e → r ≠ .errcode → r ≠ .status →
    hostRead r.offset 32 s = .next (s.readReg r, s)) ∧
  (∀ s : State, s.phase = .run → ∃ v t, hostRead 0x04 32 s = .next (v, t) ∧ v.getLsbD 0 = true ∧ v.getLsbD 3 = s.overrun ∧
    t = { s with draws := s.draws + 1 } ∧
    ((∀ i, decode s.pend = .ok i → writtenBy i .inPtr = false) → v.getLsbD 2 = decide (s.inPtr = s.inLen))) ∧
  (∀ (s : State) (a : Nat) (b : Byte), s.phase = .run → a < s.cfg.ibufSize → s.ibuf.read a = some b →
    hostReadByte .ibuf a s = .next (b, s)) ∧
  (∀ (s : State) (a : Nat) (b : Byte), s.phase = .run → a < s.cfg.obufSize → s.obuf.read a = some b →
    (∀ i, decode s.pend = .ok i → a < s.outPtr.toNat ∨ s.outPtr.toNat + storedBytes i s ≤ a) →
    hostReadByte .obuf a s = .next (b, s))

/-- Derived from R136 in the form of log entry 4: a register the command in progress may write, and an OBUF byte in its output interval
(written before or not: log entry 12), read as the free value of the draw counter, and the counter moves on; so does ERRCODE during an
illegal word (log entry 13). Of STATUS, ERR is a free bit, and EOS one too when the command may write IN_PTR (log entry 11). The
statement holds whatever those values are. -/
def Obligations.BusyReadOfWrittenRegisterIsFree : Prop :=
  (∀ (s : State) (i : Instr) (r : RegName), s.phase = .run → decode s.pend = .ok i → r ≠ .status → writtenBy i r = true →
    hostRead r.offset 32 s = .next (Config.drawWord s.draws, { s with draws := s.draws + 1 })) ∧
  (∀ (s : State) (e : DecodeError), s.phase = .run → decode s.pend = .error e →
    hostRead 0x08 32 s = .next (Config.drawWord s.draws, { s with draws := s.draws + 1 })) ∧
  (∀ s : State, s.phase = .run → ∃ v, hostRead 0x04 32 s = .next (v, { s with draws := s.draws + 1 }) ∧
    v.getLsbD 1 = (Config.drawWord s.draws).getLsbD 1 ∧
    ∀ i, decode s.pend = .ok i → writtenBy i .inPtr = true → v.getLsbD 2 = (Config.drawWord s.draws).getLsbD 2) ∧
  (∀ (s : State) (i : Instr) (a : Nat), s.phase = .run → decode s.pend = .ok i → a < s.cfg.obufSize →
    s.outPtr.toNat ≤ a → a < s.outPtr.toNat + storedBytes i s →
    hostReadByte .obuf a s = .next (Config.drawByte s.draws, { s with draws := s.draws + 1 }))

/-- Derived from R137, R38 and R47: the busy fault of a host byte write (before any look at the offset: log entry 9), its read-back law
and whole frame while idle, and the fault of an access at or above the buffer's size (log entry 9). -/
def Obligations.HostBufferWrites : Prop :=
  (∀ (s : State) (buf : Buffer) (a : Nat) (b : Byte), s.phase = .run →
    hostWriteByte buf a b s = .fault .hostBufWriteBusy) ∧
  (∀ (s : State) (buf : Buffer) (a : Nat) (b : Byte), s.phase = .idle → a < s.bufSize buf →
    ∃ t, hostWriteByte buf a b s = .next t ∧ hostReadByte buf a t = .next (b, t) ∧
      (∀ c, c ≠ a → (t.bufOf buf).read c = (s.bufOf buf).read c) ∧ (∀ buf', buf' ≠ buf → t.bufOf buf' = s.bufOf buf') ∧
      (∀ r : RegName, t.readReg r = s.readReg r) ∧
      (buf = .ibuf → t = { s with ibuf := t.ibuf }) ∧ (buf = .obuf → t = { s with obuf := t.obuf })) ∧
  (∀ (s : State) (buf : Buffer) (a : Nat) (b : Byte), s.bufSize buf ≤ a →
    hostReadByte buf a s = .fault .hostBufRange ∧ (s.phase = .idle → hostWriteByte buf a b s = .fault .hostBufRange))

/-- R41: the big-endian reading of a 4-byte field, as a number, and its inverse on a buffer. -/
def Obligations.BigEndianFields : Prop :=
  (∀ (m : Memory) (a : Nat) (b0 b1 b2 b3 : Byte), m.Holds a [b0, b1, b2, b3] →
    ∃ v, m.read32 a = some v ∧ v.toNat = b0.toNat * 2 ^ 24 + b1.toNat * 2 ^ 16 + b2.toNat * 2 ^ 8 + b3.toNat) ∧
  (∀ (m : Memory) (a : Nat) (v : Word),
    ∃ b0 b1 b2 b3, (m.writeBytes a (be32bytes v)).Holds a [b0, b1, b2, b3] ∧
      v.toNat = b0.toNat * 2 ^ 24 + b1.toNat * 2 ^ 16 + b2.toNat * 2 ^ 8 + b3.toNat ∧
      (m.writeBytes a (be32bytes v)).read32 a = some v)

/-! ### Reset and whole-machine rules -/

/-- R130 and R131: reset from any state, a command in progress included. PEND is not spoken of: the spec leaves it open. -/
def Obligations.ResetFromAnyState : Prop :=
  (∀ (s : State) (rest : List Agent), s.turns = .reset :: rest →
    ∃ t, step s = .next t ∧ t.phase = .idle ∧ t.readReg .status = 0x00000004 ∧ t.readReg .errcode = 0 ∧
      t.readReg .tstat = 0x0000000E ∧ t.inLen = 0 ∧ t.inPtr = 0 ∧ t.outPtr = 0 ∧ t.chkLen = 0 ∧ t.chkType = 0 ∧ t.chkDofs = 0 ∧
      t.chkCrc = 0 ∧ t.crcState = 0xFFFFFFFF ∧ t.readReg .crcValue = 0 ∧
      (∀ a, t.ibuf.read a = none) ∧ ∀ a, t.obuf.read a = none) ∧
  ∀ (c : Config) (r : RegName), (State.resetWith c).readReg r
    = if r = .status then 0x00000004 else if r = .tstat then 0x0000000E else if r = .crcState then 0xFFFFFFFF else 0

/-- The invariant holds at reset, for every legal choice of the parameters (R12, R130). -/
def Obligations.InvariantAtReset : Prop :=
  (∀ c : Config, c.wf = true → (State.resetWith c).wf = true) ∧ State.reset.wf = true

/-- Every step keeps the invariant: legal parameters, buffers in canonical form and inside their sizes, a code the block can write; and no
step changes a parameter (R12, R47, R105, R110). -/
def Obligations.StepKeepsInvariant : Prop :=
  ∀ (s t : State), s.wf = true → step s = .next t → t.wf = true ∧ t.cfg = s.cfg

/-- Derived from R23 and R37: STATUS.BUSY rises only by a host write to CMD, which latches the word written and clears OVERRUN. -/
def Obligations.OnlyCmdWriteStartsCommand : Prop :=
  ∀ (s t : State), step s = .next t → s.phase = .idle → t.phase = .run →
    ∃ (e : HExpr) (rest : List Agent), hostMoves s (.wr 0x00 32 e) rest ∧
      t.pend = BitVec.ofNat 32 (s.host.eval e) ∧ t.overrun = false

/-- Derived from R24: OVERRUN rises only by a host register write while BUSY = 1, and then nothing else of the block changes. -/
def Obligations.OverrunRisesOnlyByWriteWhileBusy : Prop :=
  ∀ (s t : State), step s = .next t → s.overrun = false → t.overrun = true →
    s.phase = .run ∧ ∃ (off : Nat) (e : HExpr) (rest : List Agent), hostMoves s (.wr off 32 e) rest ∧
      t = { s with overrun := true, turns := rest, host := t.host }

/-- Derived from R27, R38 and R43: IN_LEN changes only by a host write to it or by reset, and a byte of IBUF only by a host byte write
to it or by reset. -/
def Obligations.OnlyTheHostChangesTheInput : Prop :=
  ∀ (s t : State), step s = .next t → (∀ rest, s.turns ≠ .reset :: rest) →
    (t.inLen ≠ s.inLen → ∃ e rest, hostMoves s (.wr 0x10 32 e) rest) ∧
    (∀ a, t.ibuf.read a ≠ s.ibuf.read a → ∃ ea ev rest, hostMoves s (.wrb .ibuf ea ev) rest ∧ s.host.eval ea = a)

/-- Derived from R63, R56 and R62: `DO` of a command, from an idle state with nothing planned, is the CMD write, the command and one poll.
That exactly one poll suffices is the model's choice of log entry 5: with no turn planned the engine moves before the host polls. -/
def Obligations.DoMacroRunsTheCommand : Prop :=
  ∀ (s t : State) (i : Instr), s.phase = .idle → s.turns = [] → s.host.status = .running →
    s.host.prog[s.host.pc]? = some (CMD i) → s.host.prog[s.host.pc + 1]? = some .wait →
    exec i { s with phase := .run, overrun := false, pend := encode i, host := { s.host with pc := s.host.pc + 1 } } = .next t →
    runSteps 3 s = .next { t with host := { s.host with pc := s.host.pc + 2 } }

/-- Derived from R141: a run that has ended stays ended and keeps what is observed of it, whatever turn is planned but reset. That a stopped
host does nothing more is log entry 16. -/
def Obligations.EndedRunKeepsItsObservation : Prop :=
  ∀ s : State, runEnded s = true → (∀ rest, s.turns ≠ .reset :: rest) →
    ∃ t, step s = .next t ∧ runEnded t = true ∧ t.observe = s.observe

/-! ### Whole streams -/

/-- Derived from R102: when PARSE accepts the N bytes of input, SERIALIZE on its list, with IBUF unchanged and OBUF large enough, writes exactly those
bytes and ends with OUT_PTR = N. Both are the host programs of R99 and R101, run by the machine's own steps, under every plan of turns of
the host and the engine (log entry 5). The programs use the host statements of log entry 7, and the second one is loaded from outside as
log entry 6 says. -/
def Obligations.StreamRoundTrip : Prop :=
  ∀ (s t : State) (k : Nat), s.phase = .idle → .reset ∉ s.turns → s.host = { HostAgent.init with prog := parseProgram } →
    s.inLen.toNat ≤ s.cfg.obufSize → runSteps k s = .next t → t.host.status = .accepted →
    ∃ (n : Nat) (u : State),
      runSteps n { t with host := { t.host with prog := serializeProgram, pc := 0, status := .running } } = .next u ∧
      u.host.status = .accepted ∧ runEnded u = true ∧ u.outPtr = s.inLen ∧ u.ibuf = s.ibuf ∧
      ∀ a, a < s.inLen.toNat → u.obuf.read a = s.ibuf.read a
end

