-- ==== Sys2Proof/Laws/Memory.lean ====
section
/-! SUPPORT. The laws of the sparse representation and of the buffers: a read after a write, the canonical form is kept, ranges of bytes. -/

namespace Sys2Proof.Machine

/-! ### Key-value lists -/

section Keys
variable {α : Type}

@[simp] theorem lookupKey_insertKey_same (k : Nat) (v : α) (m : List (Nat × α)) : lookupKey k (insertKey k v m) = some v := by
  induction m with
  | nil => simp [insertKey, lookupKey]
  | cons e m ih =>
    obtain ⟨j, w⟩ := e
    simp only [insertKey]
    split
    · simp [lookupKey]
    · split
      · simp [lookupKey]
      · rename_i h1 h2
        simp [lookupKey, Ne.symm h2, ih]

theorem lookupKey_insertKey_ne {k j : Nat} (h : j ≠ k) (v : α) (m : List (Nat × α)) :
    lookupKey j (insertKey k v m) = lookupKey j m := by
  induction m with
  | nil => simp [insertKey, lookupKey, h.symm]
  | cons e m ih =>
    obtain ⟨i, w⟩ := e
    simp only [insertKey]
    split
    · simp [lookupKey, h.symm]
    · split
      · rename_i h2
        simp [lookupKey, h.symm, ← h2]
      · simp [lookupKey, ih]

theorem risingFrom_mono {b c : Nat} (h : b ≤ c) : ∀ {m : List (Nat × α)}, risingFrom c m = true → risingFrom b m = true
  | [], _ => rfl
  | (j, _) :: m, hm => by
    simp only [risingFrom, Bool.and_eq_true, decide_eq_true_eq] at hm ⊢
    exact ⟨h.trans hm.1, hm.2⟩

theorem risingFrom_insertKey (k : Nat) (v : α) :
    ∀ {b : Nat} {m : List (Nat × α)}, b ≤ k → risingFrom b m = true → risingFrom b (insertKey k v m) = true
  | b, [], hb, _ => by simp [insertKey, risingFrom, hb]
  | b, (j, w) :: m, hb, hm => by
    simp only [risingFrom, Bool.and_eq_true, decide_eq_true_eq] at hm
    simp only [insertKey]
    split
    · rename_i h
      simp only [risingFrom, Bool.and_eq_true, decide_eq_true_eq]
      exact ⟨hb, h, hm.2⟩
    · split
      · rename_i h
        subst h
        simp only [risingFrom, Bool.and_eq_true, decide_eq_true_eq]
        exact hm
      · rename_i h1 h2
        simp only [risingFrom, Bool.and_eq_true, decide_eq_true_eq]
        exact ⟨hm.1, risingFrom_insertKey k v (by omega) hm.2⟩

theorem risingFrom_eraseKey (k : Nat) : ∀ {b : Nat} {m : List (Nat × α)}, risingFrom b m = true → risingFrom b (eraseKey k m) = true
  | _, [], _ => rfl
  | b, (j, w) :: m, hm => by
    simp only [risingFrom, Bool.and_eq_true, decide_eq_true_eq] at hm
    simp only [eraseKey]
    split
    · exact risingFrom_mono (by omega) hm.2
    · simp only [risingFrom, Bool.and_eq_true, decide_eq_true_eq]
      exact ⟨hm.1, risingFrom_eraseKey k hm.2⟩

theorem mem_insertKey {k : Nat} {v : α} {e : Nat × α} {m : List (Nat × α)} (h : e ∈ insertKey k v m) : e = (k, v) ∨ e ∈ m := by
  induction m with
  | nil => simpa [insertKey] using h
  | cons f m ih =>
    obtain ⟨j, w⟩ := f
    simp only [insertKey] at h
    split at h
    · simpa using h
    · split at h
      · rcases List.mem_cons.1 h with rfl | h
        · exact .inl rfl
        · exact .inr (List.mem_cons_of_mem _ h)
      · rcases List.mem_cons.1 h with rfl | h
        · exact .inr (by simp)
        · rcases ih h with h | h
          · exact .inl h
          · exact .inr (List.mem_cons_of_mem _ h)

theorem mem_eraseKey {k : Nat} {e : Nat × α} {m : List (Nat × α)} (h : e ∈ eraseKey k m) : e ∈ m := by
  induction m with
  | nil => simp [eraseKey] at h
  | cons f m ih =>
    obtain ⟨j, w⟩ := f
    simp only [eraseKey] at h
    split at h
    · exact List.mem_cons_of_mem _ h
    · rcases List.mem_cons.1 h with rfl | h
      · simp
      · exact List.mem_cons_of_mem _ (ih h)

theorem lookupKey_of_risingFrom_lt {k b : Nat} (h : k < b) : ∀ {m : List (Nat × α)}, risingFrom b m = true → lookupKey k m = none
  | [], _ => rfl
  | (j, w) :: m, hm => by
    simp only [risingFrom, Bool.and_eq_true, decide_eq_true_eq] at hm
    have hj : j ≠ k := by omega
    simp only [lookupKey, hj, if_false]
    exact lookupKey_of_risingFrom_lt (by omega) hm.2

theorem lookupKey_eraseKey_same {b : Nat} (k : Nat) : ∀ {m : List (Nat × α)}, risingFrom b m = true → lookupKey k (eraseKey k m) = none
  | [], _ => rfl
  | (j, w) :: m, hm => by
    simp only [risingFrom, Bool.and_eq_true, decide_eq_true_eq] at hm
    simp only [eraseKey]
    split
    · rename_i h
      exact lookupKey_of_risingFrom_lt (by omega) hm.2
    · rename_i h
      simp only [lookupKey, h, if_false]
      exact lookupKey_eraseKey_same k hm.2

theorem lookupKey_eraseKey_ne {k j : Nat} (h : j ≠ k) (m : List (Nat × α)) : lookupKey j (eraseKey k m) = lookupKey j m := by
  induction m with
  | nil => rfl
  | cons e m ih =>
    obtain ⟨i, w⟩ := e
    simp only [eraseKey]
    split
    · rename_i hi
      have : i ≠ j := by omega
      simp [lookupKey, this]
    · simp [lookupKey, ih]

end Keys

/-! ### One byte -/

@[simp] theorem Memory.read_write_same (m : Memory) (a : Nat) (b : Byte) : (m.write a b).read a = some b :=
  lookupKey_insertKey_same a b m

theorem Memory.read_write_ne {a c : Nat} (h : c ≠ a) (m : Memory) (b : Byte) : (m.write a b).read c = m.read c :=
  lookupKey_insertKey_ne h b m

@[simp] theorem Memory.read_nil (a : Nat) : Memory.read [] a = none := rfl

/-- A write keeps the canonical form. -/
theorem Memory.wf_write {m : Memory} (h : m.wf = true) (a : Nat) (b : Byte) : (m.write a b).wf = true :=
  risingFrom_insertKey a b (Nat.zero_le a) h

/-- A write inside the buffer keeps every listed offset inside it. -/
theorem Memory.within_write {m : Memory} {n a : Nat} (h : m.within n = true) (ha : a < n) (b : Byte) :
    (m.write a b).within n = true := by
  simp only [Memory.within, List.all_eq_true, decide_eq_true_eq] at h ⊢
  intro e he
  rcases mem_insertKey he with rfl | he
  · exact ha
  · exact h e he

/-! ### Byte sequences -/

theorem Memory.wf_writeBytes {m : Memory} (h : m.wf = true) (a : Nat) (bs : List Byte) : (m.writeBytes a bs).wf = true := by
  induction bs generalizing m a with
  | nil => exact h
  | cons b bs ih => exact ih (wf_write h a b) (a + 1)

theorem Memory.within_writeBytes {m : Memory} {n : Nat} (h : m.within n = true) (a : Nat) (bs : List Byte)
    (ha : a + bs.length ≤ n) : (m.writeBytes a bs).within n = true := by
  induction bs generalizing m a with
  | nil => exact h
  | cons b bs ih =>
    simp only [List.length_cons] at ha
    exact ih (within_write h (by omega) b) (a + 1) (by omega)

/-- A byte outside the written interval reads as before. -/
theorem Memory.read_writeBytes_outside (m : Memory) (a c : Nat) (bs : List Byte) (h : c < a ∨ a + bs.length ≤ c) :
    (m.writeBytes a bs).read c = m.read c := by
  induction bs generalizing m a with
  | nil => rfl
  | cons b bs ih =>
    simp only [List.length_cons] at h
    rw [Memory.writeBytes, ih (m.write a b) (a + 1) (by omega), read_write_ne (by omega)]

/-- A byte inside the written interval reads as written. -/
theorem Memory.read_writeBytes_inside (m : Memory) (a : Nat) (bs : List Byte) (i : Nat) (h : i < bs.length) :
    (m.writeBytes a bs).read (a + i) = some bs[i] := by
  induction bs generalizing m a i with
  | nil => simp at h
  | cons b bs ih =>
    cases i with
    | zero => rw [Memory.writeBytes, read_writeBytes_outside _ _ _ _ (by omega)]; simp
    | succ i =>
      have := ih (m.write a b) (a + 1) i (by simpa using h)
      rw [Memory.writeBytes, show a + (i + 1) = a + 1 + i by omega, this]; simp

/-- What a successful `MemRead` answers, byte by byte. -/
theorem Memory.readRange_eq_some {m : Memory} {a n : Nat} {bs : List Byte} :
    m.readRange a n = some bs ↔ bs.length = n ∧ ∀ i (h : i < bs.length), m.read (a + i) = some bs[i] := by
  induction n generalizing a bs with
  | zero =>
    simp only [Memory.readRange, Option.some.injEq]
    constructor
    · rintro rfl
      simp
    · rintro ⟨h, -⟩
      exact (List.length_eq_zero_iff.1 h).symm
  | succ n ih =>
    simp only [Memory.readRange]
    constructor
    · intro h
      split at h
      · cases h
      · rename_i b hb
        split at h
        · cases h
        · rename_i cs hcs
          cases h
          obtain ⟨hl, hr⟩ := ih.1 hcs
          refine ⟨by simp [hl], fun i hi => ?_⟩
          cases i with
          | zero => simpa using hb
          | succ i =>
            have := hr i (by simpa using hi)
            rw [show a + (i + 1) = a + 1 + i by omega, this]; simp
    · rintro ⟨hl, hr⟩
      cases bs with
      | nil => simp at hl
      | cons b bs =>
        have h0 := hr 0 (by simp)
        simp only [Nat.add_zero, List.getElem_cons_zero] at h0
        have h1 : m.readRange (a + 1) n = some bs := by
          refine ih.2 ⟨by simpa using hl, fun i hi => ?_⟩
          have := hr (i + 1) (by simpa using hi)
          rw [show a + 1 + i = a + (i + 1) by omega, this]; simp
        simp [h0, h1]

/-- `MemRead` fails exactly when some byte of the interval holds no value. -/
theorem Memory.readRange_eq_none {m : Memory} {a n : Nat} : m.readRange a n = none ↔ ∃ i, i < n ∧ m.read (a + i) = none := by
  induction n generalizing a with
  | zero => simp [Memory.readRange]
  | succ n ih =>
    simp only [Memory.readRange]
    constructor
    · intro h
      split at h
      · rename_i hb
        exact ⟨0, by omega, hb⟩
      · split at h
        · rename_i hcs
          obtain ⟨i, hi, hr⟩ := ih.1 hcs
          exact ⟨i + 1, by omega, by rwa [show a + (i + 1) = a + 1 + i by omega]⟩
        · cases h
    · rintro ⟨i, hi, hr⟩
      cases i with
      | zero => simp [show m.read a = none from hr]
      | succ i =>
        have : m.readRange (a + 1) n = none := ih.2 ⟨i, by omega, by rwa [show a + 1 + i = a + (i + 1) by omega]⟩
        rw [this]
        split <;> rfl

theorem Memory.readRange_length {m : Memory} {a n : Nat} {bs : List Byte} (h : m.readRange a n = some bs) : bs.length = n :=
  (readRange_eq_some.1 h).1

/-! ### Big-endian fields -/

/-- MemRead depends on the bytes of its interval alone. -/
theorem Memory.readRange_congr {m m' : Memory} {a n : Nat} (h : ∀ i, i < n → m.read (a + i) = m'.read (a + i)) :
    m.readRange a n = m'.readRange a n := by
  induction n generalizing a with
  | zero => rfl
  | succ n ih =>
    have h0 : m.read a = m'.read a := h 0 (by omega)
    have hs := ih (a := a + 1) fun i hi => by
      rw [Nat.add_assoc, Nat.add_comm 1 i]
      exact h (i + 1) (by omega)
    simp only [Memory.readRange, h0, hs]

/-- A 4-byte field depends on its four bytes alone. -/
theorem Memory.read32_congr {m m' : Memory} {a : Nat} (h : ∀ i, i < 4 → m.read (a + i) = m'.read (a + i)) :
    m.read32 a = m'.read32 a := by
  simp only [Memory.read32, Memory.readRange_congr h]

@[simp] theorem be32bytes_length (v : Word) : (be32bytes v).length = 4 := rfl

theorem frameBytes_length (l t : Word) (d : List Byte) (c : Word) : (frameBytes l t d c).length = 12 + d.length := by
  simp [frameBytes]; omega

/-- `be32` undoes `be32bytes`. -/
theorem be32_be32bytes (v : Word) : be32 (v.extractLsb' 24 8) (v.extractLsb' 16 8) (v.extractLsb' 8 8) (v.extractLsb' 0 8) = v := by
  refine BitVec.eq_of_getLsbD_eq fun i hi => ?_
  simp only [be32, BitVec.getLsbD_append, BitVec.getLsbD_extractLsb']
  split
  · simp [*]
  · split
    · simp only [*, decide_true, Bool.true_and]; congr 1; omega
    · split
      · simp only [*, decide_true, Bool.true_and]; congr 1; omega
      · rw [decide_eq_true (by omega), Bool.true_and]; congr 1; omega

/-- `be32bytes` undoes `be32`. -/
theorem be32bytes_be32 (b0 b1 b2 b3 : Byte) : be32bytes (be32 b0 b1 b2 b3) = [b0, b1, b2, b3] := by
  simp only [be32bytes, be32, List.cons.injEq, and_true]
  refine ⟨?_, ?_, ?_, ?_⟩ <;> refine BitVec.eq_of_getLsbD_eq fun i hi => ?_ <;>
    simp only [BitVec.getLsbD_extractLsb', BitVec.getLsbD_append, hi, decide_true, Bool.true_and]
  · rw [if_neg (by omega), if_neg (by omega), if_neg (by omega)]; congr 1; omega
  · rw [if_neg (by omega), if_neg (by omega), if_pos (by omega)]; congr 1; omega
  · rw [if_neg (by omega), if_pos (by omega)]; congr 1; omega
  · rw [if_pos (by omega)]; congr 1; omega

/-- A 4-byte field reads as v exactly when the four bytes are `be32bytes v`. -/
theorem Memory.read32_eq_some {m : Memory} {a : Nat} {v : Word} : m.read32 a = some v ↔ m.readRange a 4 = some (be32bytes v) := by
  constructor
  · intro h
    simp only [Memory.read32] at h
    split at h
    · rename_i b0 b1 b2 b3 hr
      cases h
      rw [be32bytes_be32]; exact hr
    · cases h
  · intro h
    simp only [Memory.read32, h, be32bytes]
    rw [be32_be32bytes]

theorem Memory.read32_eq_none {m : Memory} {a : Nat} : m.read32 a = none ↔ ∃ i, i < 4 ∧ m.read (a + i) = none := by
  rw [← Memory.readRange_eq_none]
  constructor
  · intro h
    cases hr : m.readRange a 4 with
    | none => rfl
    | some bs =>
      have hl := Memory.readRange_length hr
      match bs, hl with
      | [b0, b1, b2, b3], _ => simp [Memory.read32, hr] at h
  · intro h
    simp [Memory.read32, h]

end Sys2Proof.Machine
end

