-- ==== Sys2Proof/Laws/State.lean ====
section
/-! SUPPORT. One lemma per field per named update of State, so that no later proof unfolds a record update. -/

namespace Sys2Proof.Machine

variable (s : State)

/-! ### State.endWith -/

@[simp] theorem State.endWith_cfg (c : BitVec 4) : (s.endWith c).cfg = s.cfg := rfl
@[simp] theorem State.endWith_phase (c : BitVec 4) : (s.endWith c).phase = .idle := rfl
@[simp] theorem State.endWith_pend (c : BitVec 4) : (s.endWith c).pend = s.pend := rfl
@[simp] theorem State.endWith_overrun (c : BitVec 4) : (s.endWith c).overrun = s.overrun := rfl
@[simp] theorem State.endWith_errcode (c : BitVec 4) : (s.endWith c).errcode = c := rfl
@[simp] theorem State.endWith_inLen (c : BitVec 4) : (s.endWith c).inLen = s.inLen := rfl
@[simp] theorem State.endWith_inPtr (c : BitVec 4) : (s.endWith c).inPtr = s.inPtr := rfl
@[simp] theorem State.endWith_outPtr (c : BitVec 4) : (s.endWith c).outPtr = s.outPtr := rfl
@[simp] theorem State.endWith_chkLen (c : BitVec 4) : (s.endWith c).chkLen = s.chkLen := rfl
@[simp] theorem State.endWith_chkType (c : BitVec 4) : (s.endWith c).chkType = s.chkType := rfl
@[simp] theorem State.endWith_chkDofs (c : BitVec 4) : (s.endWith c).chkDofs = s.chkDofs := rfl
@[simp] theorem State.endWith_chkCrc (c : BitVec 4) : (s.endWith c).chkCrc = s.chkCrc := rfl
@[simp] theorem State.endWith_crcState (c : BitVec 4) : (s.endWith c).crcState = s.crcState := rfl
@[simp] theorem State.endWith_ibuf (c : BitVec 4) : (s.endWith c).ibuf = s.ibuf := rfl
@[simp] theorem State.endWith_obuf (c : BitVec 4) : (s.endWith c).obuf = s.obuf := rfl
@[simp] theorem State.endWith_host (c : BitVec 4) : (s.endWith c).host = s.host := rfl
@[simp] theorem State.endWith_draws (c : BitVec 4) : (s.endWith c).draws = s.draws := rfl
@[simp] theorem State.endWith_turns (c : BitVec 4) : (s.endWith c).turns = s.turns := rfl

/-! ### State.raise -/

@[simp] theorem State.raise_cfg (e : Err) : (s.raise e).cfg = s.cfg := rfl
@[simp] theorem State.raise_phase (e : Err) : (s.raise e).phase = .idle := rfl
@[simp] theorem State.raise_pend (e : Err) : (s.raise e).pend = s.pend := rfl
@[simp] theorem State.raise_overrun (e : Err) : (s.raise e).overrun = s.overrun := rfl
@[simp] theorem State.raise_errcode (e : Err) : (s.raise e).errcode = e.code := rfl
@[simp] theorem State.raise_inLen (e : Err) : (s.raise e).inLen = s.inLen := rfl
@[simp] theorem State.raise_inPtr (e : Err) : (s.raise e).inPtr = s.inPtr := rfl
@[simp] theorem State.raise_outPtr (e : Err) : (s.raise e).outPtr = s.outPtr := rfl
@[simp] theorem State.raise_chkLen (e : Err) : (s.raise e).chkLen = s.chkLen := rfl
@[simp] theorem State.raise_chkType (e : Err) : (s.raise e).chkType = s.chkType := rfl
@[simp] theorem State.raise_chkDofs (e : Err) : (s.raise e).chkDofs = s.chkDofs := rfl
@[simp] theorem State.raise_chkCrc (e : Err) : (s.raise e).chkCrc = s.chkCrc := rfl
@[simp] theorem State.raise_crcState (e : Err) : (s.raise e).crcState = s.crcState := rfl
@[simp] theorem State.raise_ibuf (e : Err) : (s.raise e).ibuf = s.ibuf := rfl
@[simp] theorem State.raise_obuf (e : Err) : (s.raise e).obuf = s.obuf := rfl
@[simp] theorem State.raise_host (e : Err) : (s.raise e).host = s.host := rfl
@[simp] theorem State.raise_draws (e : Err) : (s.raise e).draws = s.draws := rfl
@[simp] theorem State.raise_turns (e : Err) : (s.raise e).turns = s.turns := rfl

/-! ### State.complete -/

@[simp] theorem State.complete_cfg : s.complete.cfg = s.cfg := rfl
@[simp] theorem State.complete_phase : s.complete.phase = .idle := rfl
@[simp] theorem State.complete_pend : s.complete.pend = s.pend := rfl
@[simp] theorem State.complete_overrun : s.complete.overrun = s.overrun := rfl
@[simp] theorem State.complete_errcode : s.complete.errcode = 0 := rfl
@[simp] theorem State.complete_inLen : s.complete.inLen = s.inLen := rfl
@[simp] theorem State.complete_inPtr : s.complete.inPtr = s.inPtr := rfl
@[simp] theorem State.complete_outPtr : s.complete.outPtr = s.outPtr := rfl
@[simp] theorem State.complete_chkLen : s.complete.chkLen = s.chkLen := rfl
@[simp] theorem State.complete_chkType : s.complete.chkType = s.chkType := rfl
@[simp] theorem State.complete_chkDofs : s.complete.chkDofs = s.chkDofs := rfl
@[simp] theorem State.complete_chkCrc : s.complete.chkCrc = s.chkCrc := rfl
@[simp] theorem State.complete_crcState : s.complete.crcState = s.crcState := rfl
@[simp] theorem State.complete_ibuf : s.complete.ibuf = s.ibuf := rfl
@[simp] theorem State.complete_obuf : s.complete.obuf = s.obuf := rfl
@[simp] theorem State.complete_host : s.complete.host = s.host := rfl
@[simp] theorem State.complete_draws : s.complete.draws = s.draws := rfl
@[simp] theorem State.complete_turns : s.complete.turns = s.turns := rfl

/-! ### State.setCrcState -/

@[simp] theorem State.setCrcState_cfg (v : Word) : (s.setCrcState v).cfg = s.cfg := rfl
@[simp] theorem State.setCrcState_phase (v : Word) : (s.setCrcState v).phase = s.phase := rfl
@[simp] theorem State.setCrcState_pend (v : Word) : (s.setCrcState v).pend = s.pend := rfl
@[simp] theorem State.setCrcState_overrun (v : Word) : (s.setCrcState v).overrun = s.overrun := rfl
@[simp] theorem State.setCrcState_errcode (v : Word) : (s.setCrcState v).errcode = s.errcode := rfl
@[simp] theorem State.setCrcState_inLen (v : Word) : (s.setCrcState v).inLen = s.inLen := rfl
@[simp] theorem State.setCrcState_inPtr (v : Word) : (s.setCrcState v).inPtr = s.inPtr := rfl
@[simp] theorem State.setCrcState_outPtr (v : Word) : (s.setCrcState v).outPtr = s.outPtr := rfl
@[simp] theorem State.setCrcState_chkLen (v : Word) : (s.setCrcState v).chkLen = s.chkLen := rfl
@[simp] theorem State.setCrcState_chkType (v : Word) : (s.setCrcState v).chkType = s.chkType := rfl
@[simp] theorem State.setCrcState_chkDofs (v : Word) : (s.setCrcState v).chkDofs = s.chkDofs := rfl
@[simp] theorem State.setCrcState_chkCrc (v : Word) : (s.setCrcState v).chkCrc = s.chkCrc := rfl
@[simp] theorem State.setCrcState_crcState (v : Word) : (s.setCrcState v).crcState = v := rfl
@[simp] theorem State.setCrcState_ibuf (v : Word) : (s.setCrcState v).ibuf = s.ibuf := rfl
@[simp] theorem State.setCrcState_obuf (v : Word) : (s.setCrcState v).obuf = s.obuf := rfl
@[simp] theorem State.setCrcState_host (v : Word) : (s.setCrcState v).host = s.host := rfl
@[simp] theorem State.setCrcState_draws (v : Word) : (s.setCrcState v).draws = s.draws := rfl
@[simp] theorem State.setCrcState_turns (v : Word) : (s.setCrcState v).turns = s.turns := rfl

/-! ### State.setChkCrc -/

@[simp] theorem State.setChkCrc_cfg (v : Word) : (s.setChkCrc v).cfg = s.cfg := rfl
@[simp] theorem State.setChkCrc_phase (v : Word) : (s.setChkCrc v).phase = s.phase := rfl
@[simp] theorem State.setChkCrc_pend (v : Word) : (s.setChkCrc v).pend = s.pend := rfl
@[simp] theorem State.setChkCrc_overrun (v : Word) : (s.setChkCrc v).overrun = s.overrun := rfl
@[simp] theorem State.setChkCrc_errcode (v : Word) : (s.setChkCrc v).errcode = s.errcode := rfl
@[simp] theorem State.setChkCrc_inLen (v : Word) : (s.setChkCrc v).inLen = s.inLen := rfl
@[simp] theorem State.setChkCrc_inPtr (v : Word) : (s.setChkCrc v).inPtr = s.inPtr := rfl
@[simp] theorem State.setChkCrc_outPtr (v : Word) : (s.setChkCrc v).outPtr = s.outPtr := rfl
@[simp] theorem State.setChkCrc_chkLen (v : Word) : (s.setChkCrc v).chkLen = s.chkLen := rfl
@[simp] theorem State.setChkCrc_chkType (v : Word) : (s.setChkCrc v).chkType = s.chkType := rfl
@[simp] theorem State.setChkCrc_chkDofs (v : Word) : (s.setChkCrc v).chkDofs = s.chkDofs := rfl
@[simp] theorem State.setChkCrc_chkCrc (v : Word) : (s.setChkCrc v).chkCrc = v := rfl
@[simp] theorem State.setChkCrc_crcState (v : Word) : (s.setChkCrc v).crcState = s.crcState := rfl
@[simp] theorem State.setChkCrc_ibuf (v : Word) : (s.setChkCrc v).ibuf = s.ibuf := rfl
@[simp] theorem State.setChkCrc_obuf (v : Word) : (s.setChkCrc v).obuf = s.obuf := rfl
@[simp] theorem State.setChkCrc_host (v : Word) : (s.setChkCrc v).host = s.host := rfl
@[simp] theorem State.setChkCrc_draws (v : Word) : (s.setChkCrc v).draws = s.draws := rfl
@[simp] theorem State.setChkCrc_turns (v : Word) : (s.setChkCrc v).turns = s.turns := rfl

/-! ### State.setInPtr -/

@[simp] theorem State.setInPtr_cfg (v : Word) : (s.setInPtr v).cfg = s.cfg := rfl
@[simp] theorem State.setInPtr_phase (v : Word) : (s.setInPtr v).phase = s.phase := rfl
@[simp] theorem State.setInPtr_pend (v : Word) : (s.setInPtr v).pend = s.pend := rfl
@[simp] theorem State.setInPtr_overrun (v : Word) : (s.setInPtr v).overrun = s.overrun := rfl
@[simp] theorem State.setInPtr_errcode (v : Word) : (s.setInPtr v).errcode = s.errcode := rfl
@[simp] theorem State.setInPtr_inLen (v : Word) : (s.setInPtr v).inLen = s.inLen := rfl
@[simp] theorem State.setInPtr_inPtr (v : Word) : (s.setInPtr v).inPtr = v := rfl
@[simp] theorem State.setInPtr_outPtr (v : Word) : (s.setInPtr v).outPtr = s.outPtr := rfl
@[simp] theorem State.setInPtr_chkLen (v : Word) : (s.setInPtr v).chkLen = s.chkLen := rfl
@[simp] theorem State.setInPtr_chkType (v : Word) : (s.setInPtr v).chkType = s.chkType := rfl
@[simp] theorem State.setInPtr_chkDofs (v : Word) : (s.setInPtr v).chkDofs = s.chkDofs := rfl
@[simp] theorem State.setInPtr_chkCrc (v : Word) : (s.setInPtr v).chkCrc = s.chkCrc := rfl
@[simp] theorem State.setInPtr_crcState (v : Word) : (s.setInPtr v).crcState = s.crcState := rfl
@[simp] theorem State.setInPtr_ibuf (v : Word) : (s.setInPtr v).ibuf = s.ibuf := rfl
@[simp] theorem State.setInPtr_obuf (v : Word) : (s.setInPtr v).obuf = s.obuf := rfl
@[simp] theorem State.setInPtr_host (v : Word) : (s.setInPtr v).host = s.host := rfl
@[simp] theorem State.setInPtr_draws (v : Word) : (s.setInPtr v).draws = s.draws := rfl
@[simp] theorem State.setInPtr_turns (v : Word) : (s.setInPtr v).turns = s.turns := rfl

/-! ### State.loadChunk -/

@[simp] theorem State.loadChunk_cfg (l t o c n : Word) : (s.loadChunk l t o c n).cfg = s.cfg := rfl
@[simp] theorem State.loadChunk_phase (l t o c n : Word) : (s.loadChunk l t o c n).phase = s.phase := rfl
@[simp] theorem State.loadChunk_pend (l t o c n : Word) : (s.loadChunk l t o c n).pend = s.pend := rfl
@[simp] theorem State.loadChunk_overrun (l t o c n : Word) : (s.loadChunk l t o c n).overrun = s.overrun := rfl
@[simp] theorem State.loadChunk_errcode (l t o c n : Word) : (s.loadChunk l t o c n).errcode = s.errcode := rfl
@[simp] theorem State.loadChunk_inLen (l t o c n : Word) : (s.loadChunk l t o c n).inLen = s.inLen := rfl
@[simp] theorem State.loadChunk_inPtr (l t o c n : Word) : (s.loadChunk l t o c n).inPtr = n := rfl
@[simp] theorem State.loadChunk_outPtr (l t o c n : Word) : (s.loadChunk l t o c n).outPtr = s.outPtr := rfl
@[simp] theorem State.loadChunk_chkLen (l t o c n : Word) : (s.loadChunk l t o c n).chkLen = l := rfl
@[simp] theorem State.loadChunk_chkType (l t o c n : Word) : (s.loadChunk l t o c n).chkType = t := rfl
@[simp] theorem State.loadChunk_chkDofs (l t o c n : Word) : (s.loadChunk l t o c n).chkDofs = o := rfl
@[simp] theorem State.loadChunk_chkCrc (l t o c n : Word) : (s.loadChunk l t o c n).chkCrc = c := rfl
@[simp] theorem State.loadChunk_crcState (l t o c n : Word) : (s.loadChunk l t o c n).crcState = s.crcState := rfl
@[simp] theorem State.loadChunk_ibuf (l t o c n : Word) : (s.loadChunk l t o c n).ibuf = s.ibuf := rfl
@[simp] theorem State.loadChunk_obuf (l t o c n : Word) : (s.loadChunk l t o c n).obuf = s.obuf := rfl
@[simp] theorem State.loadChunk_host (l t o c n : Word) : (s.loadChunk l t o c n).host = s.host := rfl
@[simp] theorem State.loadChunk_draws (l t o c n : Word) : (s.loadChunk l t o c n).draws = s.draws := rfl
@[simp] theorem State.loadChunk_turns (l t o c n : Word) : (s.loadChunk l t o c n).turns = s.turns := rfl

/-! ### State.emit -/

@[simp] theorem State.emit_cfg (bs : List Byte) : (s.emit bs).cfg = s.cfg := rfl
@[simp] theorem State.emit_phase (bs : List Byte) : (s.emit bs).phase = s.phase := rfl
@[simp] theorem State.emit_pend (bs : List Byte) : (s.emit bs).pend = s.pend := rfl
@[simp] theorem State.emit_overrun (bs : List Byte) : (s.emit bs).overrun = s.overrun := rfl
@[simp] theorem State.emit_errcode (bs : List Byte) : (s.emit bs).errcode = s.errcode := rfl
@[simp] theorem State.emit_inLen (bs : List Byte) : (s.emit bs).inLen = s.inLen := rfl
@[simp] theorem State.emit_inPtr (bs : List Byte) : (s.emit bs).inPtr = s.inPtr := rfl
@[simp] theorem State.emit_outPtr (bs : List Byte) : (s.emit bs).outPtr = BitVec.ofNat 32 (s.outPtr.toNat + bs.length) := rfl
@[simp] theorem State.emit_chkLen (bs : List Byte) : (s.emit bs).chkLen = s.chkLen := rfl
@[simp] theorem State.emit_chkType (bs : List Byte) : (s.emit bs).chkType = s.chkType := rfl
@[simp] theorem State.emit_chkDofs (bs : List Byte) : (s.emit bs).chkDofs = s.chkDofs := rfl
@[simp] theorem State.emit_chkCrc (bs : List Byte) : (s.emit bs).chkCrc = s.chkCrc := rfl
@[simp] theorem State.emit_crcState (bs : List Byte) : (s.emit bs).crcState = s.crcState := rfl
@[simp] theorem State.emit_ibuf (bs : List Byte) : (s.emit bs).ibuf = s.ibuf := rfl
@[simp] theorem State.emit_obuf (bs : List Byte) : (s.emit bs).obuf = s.obuf.writeBytes s.outPtr.toNat bs := rfl
@[simp] theorem State.emit_host (bs : List Byte) : (s.emit bs).host = s.host := rfl
@[simp] theorem State.emit_draws (bs : List Byte) : (s.emit bs).draws = s.draws := rfl
@[simp] theorem State.emit_turns (bs : List Byte) : (s.emit bs).turns = s.turns := rfl

/-! ### State.issue -/

@[simp] theorem State.issue_cfg (w : Word) : (s.issue w).cfg = s.cfg := rfl
@[simp] theorem State.issue_phase (w : Word) : (s.issue w).phase = .run := rfl
@[simp] theorem State.issue_pend (w : Word) : (s.issue w).pend = w := rfl
@[simp] theorem State.issue_overrun (w : Word) : (s.issue w).overrun = false := rfl
@[simp] theorem State.issue_errcode (w : Word) : (s.issue w).errcode = s.errcode := rfl
@[simp] theorem State.issue_inLen (w : Word) : (s.issue w).inLen = s.inLen := rfl
@[simp] theorem State.issue_inPtr (w : Word) : (s.issue w).inPtr = s.inPtr := rfl
@[simp] theorem State.issue_outPtr (w : Word) : (s.issue w).outPtr = s.outPtr := rfl
@[simp] theorem State.issue_chkLen (w : Word) : (s.issue w).chkLen = s.chkLen := rfl
@[simp] theorem State.issue_chkType (w : Word) : (s.issue w).chkType = s.chkType := rfl
@[simp] theorem State.issue_chkDofs (w : Word) : (s.issue w).chkDofs = s.chkDofs := rfl
@[simp] theorem State.issue_chkCrc (w : Word) : (s.issue w).chkCrc = s.chkCrc := rfl
@[simp] theorem State.issue_crcState (w : Word) : (s.issue w).crcState = s.crcState := rfl
@[simp] theorem State.issue_ibuf (w : Word) : (s.issue w).ibuf = s.ibuf := rfl
@[simp] theorem State.issue_obuf (w : Word) : (s.issue w).obuf = s.obuf := rfl
@[simp] theorem State.issue_host (w : Word) : (s.issue w).host = s.host := rfl
@[simp] theorem State.issue_draws (w : Word) : (s.issue w).draws = s.draws := rfl
@[simp] theorem State.issue_turns (w : Word) : (s.issue w).turns = s.turns := rfl

/-! ### State.setOverrun -/

@[simp] theorem State.setOverrun_cfg (b : Bool) : (s.setOverrun b).cfg = s.cfg := rfl
@[simp] theorem State.setOverrun_phase (b : Bool) : (s.setOverrun b).phase = s.phase := rfl
@[simp] theorem State.setOverrun_pend (b : Bool) : (s.setOverrun b).pend = s.pend := rfl
@[simp] theorem State.setOverrun_overrun (b : Bool) : (s.setOverrun b).overrun = b := rfl
@[simp] theorem State.setOverrun_errcode (b : Bool) : (s.setOverrun b).errcode = s.errcode := rfl
@[simp] theorem State.setOverrun_inLen (b : Bool) : (s.setOverrun b).inLen = s.inLen := rfl
@[simp] theorem State.setOverrun_inPtr (b : Bool) : (s.setOverrun b).inPtr = s.inPtr := rfl
@[simp] theorem State.setOverrun_outPtr (b : Bool) : (s.setOverrun b).outPtr = s.outPtr := rfl
@[simp] theorem State.setOverrun_chkLen (b : Bool) : (s.setOverrun b).chkLen = s.chkLen := rfl
@[simp] theorem State.setOverrun_chkType (b : Bool) : (s.setOverrun b).chkType = s.chkType := rfl
@[simp] theorem State.setOverrun_chkDofs (b : Bool) : (s.setOverrun b).chkDofs = s.chkDofs := rfl
@[simp] theorem State.setOverrun_chkCrc (b : Bool) : (s.setOverrun b).chkCrc = s.chkCrc := rfl
@[simp] theorem State.setOverrun_crcState (b : Bool) : (s.setOverrun b).crcState = s.crcState := rfl
@[simp] theorem State.setOverrun_ibuf (b : Bool) : (s.setOverrun b).ibuf = s.ibuf := rfl
@[simp] theorem State.setOverrun_obuf (b : Bool) : (s.setOverrun b).obuf = s.obuf := rfl
@[simp] theorem State.setOverrun_host (b : Bool) : (s.setOverrun b).host = s.host := rfl
@[simp] theorem State.setOverrun_draws (b : Bool) : (s.setOverrun b).draws = s.draws := rfl
@[simp] theorem State.setOverrun_turns (b : Bool) : (s.setOverrun b).turns = s.turns := rfl

/-! ### State.drew -/

@[simp] theorem State.drew_cfg : s.drew.cfg = s.cfg := rfl
@[simp] theorem State.drew_phase : s.drew.phase = s.phase := rfl
@[simp] theorem State.drew_pend : s.drew.pend = s.pend := rfl
@[simp] theorem State.drew_overrun : s.drew.overrun = s.overrun := rfl
@[simp] theorem State.drew_errcode : s.drew.errcode = s.errcode := rfl
@[simp] theorem State.drew_inLen : s.drew.inLen = s.inLen := rfl
@[simp] theorem State.drew_inPtr : s.drew.inPtr = s.inPtr := rfl
@[simp] theorem State.drew_outPtr : s.drew.outPtr = s.outPtr := rfl
@[simp] theorem State.drew_chkLen : s.drew.chkLen = s.chkLen := rfl
@[simp] theorem State.drew_chkType : s.drew.chkType = s.chkType := rfl
@[simp] theorem State.drew_chkDofs : s.drew.chkDofs = s.chkDofs := rfl
@[simp] theorem State.drew_chkCrc : s.drew.chkCrc = s.chkCrc := rfl
@[simp] theorem State.drew_crcState : s.drew.crcState = s.crcState := rfl
@[simp] theorem State.drew_ibuf : s.drew.ibuf = s.ibuf := rfl
@[simp] theorem State.drew_obuf : s.drew.obuf = s.obuf := rfl
@[simp] theorem State.drew_host : s.drew.host = s.host := rfl
@[simp] theorem State.drew_draws : s.drew.draws = s.draws + 1 := rfl
@[simp] theorem State.drew_turns : s.drew.turns = s.turns := rfl

/-! ### State.setHost -/

@[simp] theorem State.setHost_cfg (h : HostAgent) : (s.setHost h).cfg = s.cfg := rfl
@[simp] theorem State.setHost_phase (h : HostAgent) : (s.setHost h).phase = s.phase := rfl
@[simp] theorem State.setHost_pend (h : HostAgent) : (s.setHost h).pend = s.pend := rfl
@[simp] theorem State.setHost_overrun (h : HostAgent) : (s.setHost h).overrun = s.overrun := rfl
@[simp] theorem State.setHost_errcode (h : HostAgent) : (s.setHost h).errcode = s.errcode := rfl
@[simp] theorem State.setHost_inLen (h : HostAgent) : (s.setHost h).inLen = s.inLen := rfl
@[simp] theorem State.setHost_inPtr (h : HostAgent) : (s.setHost h).inPtr = s.inPtr := rfl
@[simp] theorem State.setHost_outPtr (h : HostAgent) : (s.setHost h).outPtr = s.outPtr := rfl
@[simp] theorem State.setHost_chkLen (h : HostAgent) : (s.setHost h).chkLen = s.chkLen := rfl
@[simp] theorem State.setHost_chkType (h : HostAgent) : (s.setHost h).chkType = s.chkType := rfl
@[simp] theorem State.setHost_chkDofs (h : HostAgent) : (s.setHost h).chkDofs = s.chkDofs := rfl
@[simp] theorem State.setHost_chkCrc (h : HostAgent) : (s.setHost h).chkCrc = s.chkCrc := rfl
@[simp] theorem State.setHost_crcState (h : HostAgent) : (s.setHost h).crcState = s.crcState := rfl
@[simp] theorem State.setHost_ibuf (h : HostAgent) : (s.setHost h).ibuf = s.ibuf := rfl
@[simp] theorem State.setHost_obuf (h : HostAgent) : (s.setHost h).obuf = s.obuf := rfl
@[simp] theorem State.setHost_host (h : HostAgent) : (s.setHost h).host = h := rfl
@[simp] theorem State.setHost_draws (h : HostAgent) : (s.setHost h).draws = s.draws := rfl
@[simp] theorem State.setHost_turns (h : HostAgent) : (s.setHost h).turns = s.turns := rfl

/-! ### State.setTurns -/

@[simp] theorem State.setTurns_cfg (ts : List Agent) : (s.setTurns ts).cfg = s.cfg := rfl
@[simp] theorem State.setTurns_phase (ts : List Agent) : (s.setTurns ts).phase = s.phase := rfl
@[simp] theorem State.setTurns_pend (ts : List Agent) : (s.setTurns ts).pend = s.pend := rfl
@[simp] theorem State.setTurns_overrun (ts : List Agent) : (s.setTurns ts).overrun = s.overrun := rfl
@[simp] theorem State.setTurns_errcode (ts : List Agent) : (s.setTurns ts).errcode = s.errcode := rfl
@[simp] theorem State.setTurns_inLen (ts : List Agent) : (s.setTurns ts).inLen = s.inLen := rfl
@[simp] theorem State.setTurns_inPtr (ts : List Agent) : (s.setTurns ts).inPtr = s.inPtr := rfl
@[simp] theorem State.setTurns_outPtr (ts : List Agent) : (s.setTurns ts).outPtr = s.outPtr := rfl
@[simp] theorem State.setTurns_chkLen (ts : List Agent) : (s.setTurns ts).chkLen = s.chkLen := rfl
@[simp] theorem State.setTurns_chkType (ts : List Agent) : (s.setTurns ts).chkType = s.chkType := rfl
@[simp] theorem State.setTurns_chkDofs (ts : List Agent) : (s.setTurns ts).chkDofs = s.chkDofs := rfl
@[simp] theorem State.setTurns_chkCrc (ts : List Agent) : (s.setTurns ts).chkCrc = s.chkCrc := rfl
@[simp] theorem State.setTurns_crcState (ts : List Agent) : (s.setTurns ts).crcState = s.crcState := rfl
@[simp] theorem State.setTurns_ibuf (ts : List Agent) : (s.setTurns ts).ibuf = s.ibuf := rfl
@[simp] theorem State.setTurns_obuf (ts : List Agent) : (s.setTurns ts).obuf = s.obuf := rfl
@[simp] theorem State.setTurns_host (ts : List Agent) : (s.setTurns ts).host = s.host := rfl
@[simp] theorem State.setTurns_draws (ts : List Agent) : (s.setTurns ts).draws = s.draws := rfl
@[simp] theorem State.setTurns_turns (ts : List Agent) : (s.setTurns ts).turns = ts := rfl

/-! ### State.resetInput -/

@[simp] theorem State.resetInput_cfg : s.resetInput.cfg = s.cfg := rfl
@[simp] theorem State.resetInput_phase : s.resetInput.phase = .idle := rfl
@[simp] theorem State.resetInput_pend : s.resetInput.pend = 0 := rfl
@[simp] theorem State.resetInput_overrun : s.resetInput.overrun = false := rfl
@[simp] theorem State.resetInput_errcode : s.resetInput.errcode = 0 := rfl
@[simp] theorem State.resetInput_inLen : s.resetInput.inLen = 0 := rfl
@[simp] theorem State.resetInput_inPtr : s.resetInput.inPtr = 0 := rfl
@[simp] theorem State.resetInput_outPtr : s.resetInput.outPtr = 0 := rfl
@[simp] theorem State.resetInput_chkLen : s.resetInput.chkLen = 0 := rfl
@[simp] theorem State.resetInput_chkType : s.resetInput.chkType = 0 := rfl
@[simp] theorem State.resetInput_chkDofs : s.resetInput.chkDofs = 0 := rfl
@[simp] theorem State.resetInput_chkCrc : s.resetInput.chkCrc = 0 := rfl
@[simp] theorem State.resetInput_crcState : s.resetInput.crcState = 0xFFFFFFFF := rfl
@[simp] theorem State.resetInput_ibuf : s.resetInput.ibuf = [] := rfl
@[simp] theorem State.resetInput_obuf : s.resetInput.obuf = [] := rfl
@[simp] theorem State.resetInput_host : s.resetInput.host = s.host := rfl
@[simp] theorem State.resetInput_draws : s.resetInput.draws = s.draws := rfl
@[simp] theorem State.resetInput_turns : s.resetInput.turns = s.turns := rfl

/-! ### State.setByte -/

@[simp] theorem State.setByte_cfg (b : Buffer) (a : Nat) (v : Byte) : (s.setByte b a v).cfg = s.cfg := by cases b <;> rfl
@[simp] theorem State.setByte_phase (b : Buffer) (a : Nat) (v : Byte) : (s.setByte b a v).phase = s.phase := by cases b <;> rfl
@[simp] theorem State.setByte_pend (b : Buffer) (a : Nat) (v : Byte) : (s.setByte b a v).pend = s.pend := by cases b <;> rfl
@[simp] theorem State.setByte_overrun (b : Buffer) (a : Nat) (v : Byte) : (s.setByte b a v).overrun = s.overrun := by cases b <;> rfl
@[simp] theorem State.setByte_errcode (b : Buffer) (a : Nat) (v : Byte) : (s.setByte b a v).errcode = s.errcode := by cases b <;> rfl
@[simp] theorem State.setByte_inLen (b : Buffer) (a : Nat) (v : Byte) : (s.setByte b a v).inLen = s.inLen := by cases b <;> rfl
@[simp] theorem State.setByte_inPtr (b : Buffer) (a : Nat) (v : Byte) : (s.setByte b a v).inPtr = s.inPtr := by cases b <;> rfl
@[simp] theorem State.setByte_outPtr (b : Buffer) (a : Nat) (v : Byte) : (s.setByte b a v).outPtr = s.outPtr := by cases b <;> rfl
@[simp] theorem State.setByte_chkLen (b : Buffer) (a : Nat) (v : Byte) : (s.setByte b a v).chkLen = s.chkLen := by cases b <;> rfl
@[simp] theorem State.setByte_chkType (b : Buffer) (a : Nat) (v : Byte) : (s.setByte b a v).chkType = s.chkType := by cases b <;> rfl
@[simp] theorem State.setByte_chkDofs (b : Buffer) (a : Nat) (v : Byte) : (s.setByte b a v).chkDofs = s.chkDofs := by cases b <;> rfl
@[simp] theorem State.setByte_chkCrc (b : Buffer) (a : Nat) (v : Byte) : (s.setByte b a v).chkCrc = s.chkCrc := by cases b <;> rfl
@[simp] theorem State.setByte_crcState (b : Buffer) (a : Nat) (v : Byte) : (s.setByte b a v).crcState = s.crcState := by cases b <;> rfl
@[simp] theorem State.setByte_host (b : Buffer) (a : Nat) (v : Byte) : (s.setByte b a v).host = s.host := by cases b <;> rfl
@[simp] theorem State.setByte_draws (b : Buffer) (a : Nat) (v : Byte) : (s.setByte b a v).draws = s.draws := by cases b <;> rfl
@[simp] theorem State.setByte_turns (b : Buffer) (a : Nat) (v : Byte) : (s.setByte b a v).turns = s.turns := by cases b <;> rfl
@[simp] theorem State.setByte_ibuf_ibuf (a : Nat) (v : Byte) : (s.setByte .ibuf a v).ibuf = s.ibuf.write a v := rfl
@[simp] theorem State.setByte_ibuf_obuf (a : Nat) (v : Byte) : (s.setByte .ibuf a v).obuf = s.obuf := rfl
@[simp] theorem State.setByte_obuf_obuf (a : Nat) (v : Byte) : (s.setByte .obuf a v).obuf = s.obuf.write a v := rfl
@[simp] theorem State.setByte_obuf_ibuf (a : Nat) (v : Byte) : (s.setByte .obuf a v).ibuf = s.ibuf := rfl

/-! ### State.writeReg -/

@[simp] theorem State.writeReg_cfg (r : RegName) (v : Word) : (s.writeReg r v).cfg = s.cfg := by cases r <;> rfl
@[simp] theorem State.writeReg_phase (r : RegName) (v : Word) : (s.writeReg r v).phase = s.phase := by cases r <;> rfl
@[simp] theorem State.writeReg_pend (r : RegName) (v : Word) : (s.writeReg r v).pend = s.pend := by cases r <;> rfl
@[simp] theorem State.writeReg_overrun (r : RegName) (v : Word) : (s.writeReg r v).overrun = s.overrun := by cases r <;> rfl
@[simp] theorem State.writeReg_errcode (r : RegName) (v : Word) : (s.writeReg r v).errcode = s.errcode := by cases r <;> rfl
@[simp] theorem State.writeReg_ibuf (r : RegName) (v : Word) : (s.writeReg r v).ibuf = s.ibuf := by cases r <;> rfl
@[simp] theorem State.writeReg_obuf (r : RegName) (v : Word) : (s.writeReg r v).obuf = s.obuf := by cases r <;> rfl
@[simp] theorem State.writeReg_host (r : RegName) (v : Word) : (s.writeReg r v).host = s.host := by cases r <;> rfl
@[simp] theorem State.writeReg_draws (r : RegName) (v : Word) : (s.writeReg r v).draws = s.draws := by cases r <;> rfl
@[simp] theorem State.writeReg_turns (r : RegName) (v : Word) : (s.writeReg r v).turns = s.turns := by cases r <;> rfl

end Sys2Proof.Machine
end

