-- ==== Sys2Proof/Laws/Commands.lean ====
section
/-! SUPPORT. What each command can do, said once: `Ends s i t` lists every way command i can end from s in a next state t, and
`exec_ends` says there is no other. Later proofs split on it and unfold no meaning. -/

namespace Sys2Proof.Machine

/-- The ways a command ends in a next state: it raises one of its errors, or it completes. -/
inductive Ends (s : State) : Instr → State → Prop where
  | raised {i : Instr} {e : Err} (h : e ∈ errsOf i) : Ends s i (s.raise e)
  | crcInit : Ends s .crcInit (s.setCrcState crcInitValue).complete
  | crcByte (b : Byte) : Ends s (.crcByte b) (s.setCrcState (crcStep8 s.crcState b)).complete
  | crcBuf {d : List Byte} (hf : s.chkDofs.toNat + s.chkLen.toNat ≤ s.cfg.ibufSize)
      (hd : s.ibuf.readRange s.chkDofs.toNat s.chkLen.toNat = some d) :
      Ends s .crcBuf (s.setCrcState (crcFold s.crcState d)).complete
  | typeCheck (h : letters s.chkType = true) : Ends s .typeCheck s.complete
  | sigCheck (hn : s.inLen.toNat ≤ s.cfg.ibufSize) (h8 : 8 ≤ s.inLen.toNat) (hr : s.ibuf.readRange 0 8 = some signature) :
      Ends s .sigCheck (s.setInPtr 8).complete
  | chunkDecode {len t c : Word} {d : List Byte} (hn : s.inLen.toNat ≤ s.cfg.ibufSize)
      (hp : s.inPtr.toNat + 12 + len.toNat ≤ s.inLen.toNat) (hl : s.ibuf.read32 s.inPtr.toNat = some len)
      (ht : s.ibuf.read32 (s.inPtr.toNat + 4) = some t) (hd : s.ibuf.readRange (s.inPtr.toNat + 8) len.toNat = some d)
      (hc : s.ibuf.read32 (s.inPtr.toNat + 8 + len.toNat) = some c) (hlet : letters t = true) (hcrc : crcChunk t d = c) :
      Ends s .chunkDecode
        (s.loadChunk len t (BitVec.ofNat 32 (s.inPtr.toNat + 8)) c (BitVec.ofNat 32 (s.inPtr.toNat + 12 + len.toNat))).complete
  | chunkNew {d : List Byte} (hf : s.chkDofs.toNat + s.chkLen.toNat ≤ s.cfg.ibufSize) (hlet : letters s.chkType = true)
      (hd : s.ibuf.readRange s.chkDofs.toNat s.chkLen.toNat = some d) :
      Ends s .chunkNew (s.setChkCrc (crcChunk s.chkType d)).complete
  | chunkEncode {d : List Byte} (hf : s.chkDofs.toNat + s.chkLen.toNat ≤ s.cfg.ibufSize)
      (ho : s.outPtr.toNat + 12 + s.chkLen.toNat ≤ s.cfg.obufSize) (hlet : letters s.chkType = true)
      (hd : s.ibuf.readRange s.chkDofs.toNat s.chkLen.toNat = some d) :
      Ends s .chunkEncode (s.emit (frameBytes s.chkLen s.chkType d s.chkCrc)).complete
  | sigEmit (ho : s.outPtr.toNat + 8 ≤ s.cfg.obufSize) : Ends s .sigEmit (s.emit signature).complete

variable {s t : State}

theorem execCrcBuf_ends (h : execCrcBuf s = .next t) : Ends s .crcBuf t := by
  simp only [execCrcBuf, State.payload] at h
  split at h
  · cases h; exact .raised (by simp [errsOf])
  · split at h
    · cases h
    · cases h; exact .crcBuf (by omega) ‹_›

theorem execTypeCheck_ends (h : execTypeCheck s = .next t) : Ends s .typeCheck t := by
  simp only [execTypeCheck] at h
  split at h
  · cases h; exact .raised (by simp [errsOf])
  · cases h; exact .typeCheck (by simp_all)

theorem execSigCheck_ends (h : execSigCheck s = .next t) : Ends s .sigCheck t := by
  simp only [execSigCheck] at h
  split at h
  · cases h; exact .raised (by simp [errsOf])
  · split at h
    · cases h; exact .raised (by simp [errsOf])
    · split at h
      · cases h
      · split at h
        · cases h; exact .raised (by simp [errsOf])
        · cases h; exact .sigCheck (by omega) (by omega) (by simp_all)

theorem execChunkDecode_ends (h : execChunkDecode s = .next t) : Ends s .chunkDecode t := by
  simp only [execChunkDecode] at h
  split at h
  · cases h; exact .raised (by simp [errsOf])
  · split at h
    · cases h; exact .raised (by simp [errsOf])
    · split at h
      · cases h
      · rename_i hl
        split at h
        · cases h; exact .raised (by simp [errsOf])
        · simp only [decodeBody] at h
          split at h
          · cases h
          · rename_i ht
            split at h
            · cases h; exact .raised (by simp [errsOf])
            · split at h
              · cases h
              · rename_i hd
                split at h
                · cases h
                · rename_i hc
                  split at h
                  · cases h; exact .raised (by simp [errsOf])
                  · cases h
                    exact .chunkDecode (by omega) (by omega) hl ht hd hc (by simp_all) (by simp_all)

theorem execChunkNew_ends (h : execChunkNew s = .next t) : Ends s .chunkNew t := by
  simp only [execChunkNew, State.payload] at h
  split at h
  · cases h; exact .raised (by simp [errsOf])
  · split at h
    · cases h; exact .raised (by simp [errsOf])
    · split at h
      · cases h
      · cases h; exact .chunkNew (by omega) (by simp_all) ‹_›

theorem execChunkEncode_ends (h : execChunkEncode s = .next t) : Ends s .chunkEncode t := by
  simp only [execChunkEncode, State.payload] at h
  split at h
  · cases h; exact .raised (by simp [errsOf])
  · split at h
    · cases h; exact .raised (by simp [errsOf])
    · split at h
      · cases h; exact .raised (by simp [errsOf])
      · split at h
        · cases h
        · cases h; exact .chunkEncode (by omega) (by omega) (by simp_all) ‹_›

theorem execSigEmit_ends (h : execSigEmit s = .next t) : Ends s .sigEmit t := by
  simp only [execSigEmit] at h
  split at h
  · cases h; exact .raised (by simp [errsOf])
  · cases h; exact .sigEmit (by omega)

/-- Every way a command can end in a next state. -/
theorem exec_ends {i : Instr} (h : exec i s = .next t) : Ends s i t := by
  cases i with
  | crcInit => cases h; exact .crcInit
  | crcByte b => cases h; exact .crcByte b
  | crcBuf => exact execCrcBuf_ends h
  | typeCheck => exact execTypeCheck_ends h
  | sigCheck => exact execSigCheck_ends h
  | chunkDecode => exact execChunkDecode_ends h
  | chunkNew => exact execChunkNew_ends h
  | chunkEncode => exact execChunkEncode_ends h
  | sigEmit => exact execSigEmit_ends h

/-- The only fault a command ends in is a read of an unwritten IBUF byte, and no command is refused. -/
theorem exec_stops (i : Instr) (s : State) : (∃ t, exec i s = .next t) ∨ exec i s = .fault .unwrittenRead := by
  cases i with
  | crcInit => exact .inl ⟨_, rfl⟩
  | crcByte b => exact .inl ⟨_, rfl⟩
  | crcBuf => simp only [exec, execCrcBuf]; repeat' split
              all_goals simp
  | typeCheck => simp only [exec, execTypeCheck]; split <;> simp
  | sigCheck => simp only [exec, execSigCheck]; repeat' split
                all_goals simp
  | chunkDecode => simp only [exec, execChunkDecode, decodeBody]; repeat' split
                   all_goals simp
  | chunkNew => simp only [exec, execChunkNew]; repeat' split
                all_goals simp
  | chunkEncode => simp only [exec, execChunkEncode]; repeat' split
                   all_goals simp
  | sigEmit => simp only [exec, execSigEmit]; split <;> simp

/-! ### What every command leaves alone -/

/-- After a command the engine is idle: STATUS.BUSY = 0. -/
theorem Ends.phase {i : Instr} (h : Ends s i t) : t.phase = .idle := by cases h <;> rfl

theorem Ends.cfg {i : Instr} (h : Ends s i t) : t.cfg = s.cfg := by cases h <;> rfl
theorem Ends.pend {i : Instr} (h : Ends s i t) : t.pend = s.pend := by cases h <;> rfl
theorem Ends.overrun {i : Instr} (h : Ends s i t) : t.overrun = s.overrun := by cases h <;> rfl
theorem Ends.inLen {i : Instr} (h : Ends s i t) : t.inLen = s.inLen := by cases h <;> rfl
theorem Ends.ibuf {i : Instr} (h : Ends s i t) : t.ibuf = s.ibuf := by cases h <;> rfl
theorem Ends.host {i : Instr} (h : Ends s i t) : t.host = s.host := by cases h <;> rfl
theorem Ends.draws {i : Instr} (h : Ends s i t) : t.draws = s.draws := by cases h <;> rfl
theorem Ends.turns {i : Instr} (h : Ends s i t) : t.turns = s.turns := by cases h <;> rfl

/-- A raised code is never the code of success and never NoSuchChunk's. -/
theorem errsOf_code {i : Instr} {e : Err} (h : e ∈ errsOf i) : e.code ≠ 0 ∧ e.code ≠ 5 := by
  cases i <;> simp only [errsOf, List.mem_cons, List.not_mem_nil, or_false] at h <;> rcases h with rfl | rfl | rfl | rfl | rfl <;>
    decide

end Sys2Proof.Machine
end

