-- ==== Sys2Proof/Laws/Crc.lean ====
section
/-! SUPPORT. The CRC datapath as shifts of one register: `crcShift` is one round with no input bit, and a word XORed into the register is
consumed bit by bit (41_crc.md R72). -/

namespace Sys2Proof.Machine

/-- One round with no input bit. -/
def crcShift (c : Word) : Word := (c >>> 1) ^^^ (if c.getLsbD 0 then crcPoly else 0)

/-- A round on a register with a word XORed in consumes the word's lowest bit. -/
theorem crcShift_xor_input (c y : Word) : crcShift (c ^^^ y) = crcBit c (y.getLsbD 0) ^^^ (y >>> 1) := by
  simp only [crcShift, crcBit, BitVec.ushiftRight_xor_distrib, BitVec.getLsbD_xor]
  ac_rfl

/-- Eight rounds consume the word's lowest byte. -/
theorem crcShift_eight (c y : Word) : crcShift^[8] (c ^^^ y) = crcStep8 c (y.setWidth 8) ^^^ (y >>> 8) := by
  simp only [Function.iterate_succ_apply, Function.iterate_zero_apply, crcShift_xor_input, crcStep8, List.foldl,
    BitVec.getLsbD_ushiftRight, ← BitVec.shiftRight_add, BitVec.getLsbD_setWidth]
  simp

/-- A round is linear. -/
theorem crcShift_xor (a b : Word) : crcShift (a ^^^ b) = crcShift a ^^^ crcShift b := by
  have cancel : ∀ u v p : Word, u ^^^ p ^^^ (v ^^^ p) = u ^^^ v := fun u v p => by
    rw [show u ^^^ p ^^^ (v ^^^ p) = u ^^^ v ^^^ (p ^^^ p) by ac_rfl]; simp
  simp only [crcShift, BitVec.ushiftRight_xor_distrib, BitVec.getLsbD_xor]
  cases a.getLsbD 0 <;> cases b.getLsbD 0 <;> simp
  · ac_rfl
  · ac_rfl
  · exact (cancel _ _ _).symm

/-- A round loses nothing: bit 31 of its result is the bit shifted out. -/
theorem crcShift_injective : Function.Injective crcShift := by
  intro a b h
  have top : ∀ c : Word, (crcShift c).getLsbD 31 = c.getLsbD 0 := fun c => by
    simp only [crcShift, crcPoly, BitVec.getLsbD_xor, BitVec.getLsbD_ushiftRight]
    cases c.getLsbD 0 <;> simp
  have h0 : a.getLsbD 0 = b.getLsbD 0 := by rw [← top, ← top, h]
  have hs : a >>> 1 = b >>> 1 := by
    simp only [crcShift, h0] at h
    exact (BitVec.xor_left_inj _).1 h
  refine BitVec.eq_of_getLsbD_eq fun i hi => ?_
  cases i with
  | zero => exact h0
  | succ i => simpa [BitVec.getLsbD_ushiftRight, Nat.add_comm] using congrArg (fun w => BitVec.getLsbD w i) hs

end Sys2Proof.Machine
end

