-- ==== Sys2Proof/Laws/Encoding.lean ====
section
/-! SUPPORT. The fields of a command word: what they are of an encoded command, as numbers, and that they make up the word. -/

namespace Sys2Proof

theorem opField_encode (i : Instr) : opField (encode i) = opcodeOf i := by
  refine BitVec.eq_of_getLsbD_eq fun k hk => ?_
  simp only [opField, encode, BitVec.getLsbD_extractLsb', BitVec.getLsbD_append, hk, decide_true, Bool.true_and]
  rw [if_pos (by omega)]; congr 1; omega

theorem immField_encode (i : Instr) : immField (encode i) = immOf i := by
  refine BitVec.eq_of_getLsbD_eq fun k hk => ?_
  simp only [immField, encode, BitVec.getLsbD_extractLsb', BitVec.getLsbD_append, hk, decide_true, Bool.true_and]
  rw [if_neg (by omega), if_pos (by omega)]; congr 1; omega

theorem rsvField_encode (i : Instr) : rsvField (encode i) = 0 := by
  refine BitVec.eq_of_getLsbD_eq fun k hk => ?_
  simp only [rsvField, encode, BitVec.getLsbD_extractLsb', BitVec.getLsbD_append, hk, decide_true, Bool.true_and]
  rw [if_neg (by omega), if_neg (by omega)]; simp

/-- The three fields make up the word. -/
theorem fields_append (w : Word) : rsvField w ++ immField w ++ opField w = w := by
  refine BitVec.eq_of_getLsbD_eq fun k hk => ?_
  simp only [opField, immField, rsvField, BitVec.getLsbD_append, BitVec.getLsbD_extractLsb']
  split
  · simp [*]
  · split
    · simp only [*, decide_true, Bool.true_and]; congr 1; omega
    · rw [decide_eq_true (by omega), Bool.true_and]; congr 1; omega

theorem opField_toNat (w : Word) : (opField w).toNat = w.toNat % 256 := by simp [opField]

theorem immField_toNat (w : Word) : (immField w).toNat = w.toNat / 256 % 256 := by
  simp [immField, Nat.shiftRight_eq_div_pow]

theorem rsvField_toNat (w : Word) : (rsvField w).toNat = w.toNat / 65536 := by
  have := w.isLt
  simp [rsvField, Nat.shiftRight_eq_div_pow]; omega

theorem ofOpcode_opcodeOf (i : Instr) : ofOpcode (opcodeOf i) (immOf i) = some i := by cases i <;> rfl

/-- What an opcode that selects a command says about it. -/
theorem ofOpcode_some {op imm : Byte} {i : Instr} (h : ofOpcode op imm = some i) :
    op = opcodeOf i ∧ (op = 2 → imm = immOf i) := by
  unfold ofOpcode at h
  repeat' (split at h; · cases h; subst_vars; exact ⟨rfl, fun h => by first | rfl | exact absurd h (by decide)⟩)
  cases h

theorem opcodeOf_assigned (i : Instr) : (opcodeOf i).toNat ∈ assignedOpcodes := by cases i <;> simp [opcodeOf, assignedOpcodes]

/-- An opcode selects no command exactly when it is unassigned. -/
theorem ofOpcode_none {op imm : Byte} : ofOpcode op imm = none ↔ op.toNat ∉ assignedOpcodes := by
  constructor
  · intro h hm
    simp only [assignedOpcodes, List.mem_cons, List.not_mem_nil, or_false] at hm
    rcases hm with hm | hm | hm | hm | hm | hm | hm | hm | hm <;>
    · have : op = BitVec.ofNat 8 op.toNat := by simp
      rw [hm] at this; subst this; simp [ofOpcode] at h
  · intro h
    cases hh : ofOpcode op imm with
    | none => rfl
    | some i => exact absurd ((ofOpcode_some hh).1 ▸ opcodeOf_assigned i) h

theorem immOf_eq_zero {i : Instr} (h : opcodeOf i ≠ 2) : immOf i = 0 := by
  cases i <;> first | rfl | exact absurd rfl h

end Sys2Proof
end

