-- ==== Sys2Proof/Laws/Holds.lean ====
section
/-! SUPPORT. `Holds`, the byte-by-byte form the statements use, against `MemRead`. -/

namespace Sys2Proof.Machine

theorem Memory.holds_iff_readRange {m : Memory} {a : Nat} {bs : List Byte} :
    m.Holds a bs ↔ m.readRange a bs.length = some bs := by
  simp [Memory.Holds, Memory.readRange_eq_some]

theorem Memory.readRange_iff_holds {m : Memory} {a n : Nat} {bs : List Byte} :
    m.readRange a n = some bs ↔ bs.length = n ∧ m.Holds a bs := Memory.readRange_eq_some

theorem Memory.holds_append {m : Memory} {a : Nat} {bs cs : List Byte} :
    m.Holds a (bs ++ cs) ↔ m.Holds a bs ∧ m.Holds (a + bs.length) cs := by
  constructor
  · intro h
    refine ⟨fun i hi => ?_, fun i hi => ?_⟩
    · have := h i (by rw [List.length_append]; omega)
      rwa [List.getElem_append_left hi] at this
    · have := h (bs.length + i) (by rw [List.length_append]; omega)
      rw [List.getElem_append_right (by omega)] at this
      simpa [Nat.add_assoc] using this
  · rintro ⟨h1, h2⟩ i hi
    by_cases hlt : i < bs.length
    · rw [List.getElem_append_left hlt]; exact h1 i hlt
    · rw [List.length_append] at hi
      have := h2 (i - bs.length) (by omega)
      rw [List.getElem_append_right (by omega), ← this]
      congr 1; omega

theorem Memory.holds_be32bytes {m : Memory} {a : Nat} {v : Word} : m.Holds a (be32bytes v) ↔ m.read32 a = some v := by
  rw [Memory.holds_iff_readRange, Memory.read32_eq_some]; rfl

/-- A frame in a buffer, field by field. -/
theorem Memory.holds_frame {m : Memory} {a : Nat} {l t c : Word} {d : List Byte} :
    m.Holds a (be32bytes l ++ be32bytes t ++ d ++ be32bytes c) ↔
      m.read32 a = some l ∧ m.read32 (a + 4) = some t ∧ m.Holds (a + 8) d ∧ m.read32 (a + 8 + d.length) = some c := by
  simp only [Memory.holds_append, Memory.holds_be32bytes, List.length_append, be32bytes_length, and_assoc]
  rw [show a + (4 + 4 + d.length) = a + 8 + d.length by omega]

/-- What a write of bytes leaves. -/
theorem Memory.writeBytes_holds (m : Memory) (a : Nat) (bs : List Byte) : (m.writeBytes a bs).Holds a bs :=
  fun i hi => Memory.read_writeBytes_inside m a bs i hi

theorem Memory.written_iff_readRange {m : Memory} {a n : Nat} : m.Written a n ↔ ∃ bs, m.readRange a n = some bs := by
  constructor
  · intro h
    cases hr : m.readRange a n with
    | none => obtain ⟨i, hi, hn⟩ := Memory.readRange_eq_none.1 hr; exact absurd hn (h i hi)
    | some bs => exact ⟨bs, rfl⟩
  · rintro ⟨bs, h⟩ i hi hn
    have : m.readRange a n = none := Memory.readRange_eq_none.2 ⟨i, hi, hn⟩
    rw [h] at this; cases this

end Sys2Proof.Machine
end

