-- ==== Sys2Proof/Laws/HostPort.lean ====
section
/-! SUPPORT. What a host access can do, said once for each port operation. -/

namespace Sys2Proof.Machine

variable {s t : State}

/-- A register's offset finds the register. -/
@[simp] theorem regAt_offset (r : RegName) : regAt r.offset = some r := by cases r <;> rfl

/-- A register found at an offset has that offset. -/
theorem regAt_some {off : Nat} {r : RegName} (h : regAt off = some r) : off = r.offset := by
  have := List.find?_some h
  simp only [decide_eq_true_eq] at this
  exact this.symm

/-- A register's offset is inside the window and aligned. -/
theorem offset_lt (r : RegName) : r.offset < windowSize ∧ r.offset % 4 = 0 := by cases r <;> decide

@[simp] theorem busy_iff_run : s.busy = true ↔ s.phase = .run := by simp [State.busy]

theorem busy_of_idle (h : s.phase = .idle) : s.busy = false := by simp [State.busy, h]

theorem busy_of_run (h : s.phase = .run) : s.busy = true := by simp [State.busy, h]

/-- A 32-bit write at a register's offset. -/
@[simp] theorem hostWrite_reg (r : RegName) (v : Word) (s : State) : hostWrite r.offset 32 v s = .next (s.hostWriteReg r v) := by
  have := offset_lt r
  simp [hostWrite, goodAccess, this.2, Nat.not_le.2 this.1]

/-- A 32-bit read at a register's offset. -/
@[simp] theorem hostRead_reg (r : RegName) (s : State) :
    hostRead r.offset 32 s = if s.busy then .next (s.readBusy r) else .next (s.readReg r, s) := by
  have := offset_lt r
  simp [hostRead, goodAccess, this.2, Nat.not_le.2 this.1]

/-- Idle, a register reads as its value. -/
theorem hostRead_idle (h : s.phase = .idle) (r : RegName) : hostRead r.offset 32 s = .next (s.readReg r, s) := by
  simp [busy_of_idle h]

/-- Idle, a write to a register other than CMD and STATUS follows R20. -/
theorem hostWrite_idle (h : s.phase = .idle) (r : RegName) (v : Word) (hc : r ≠ .cmd) (hs : r ≠ .status) :
    hostWrite r.offset 32 v s = .next (s.writeReg r v) := by
  rw [hostWrite_reg]
  cases r <;> simp_all [State.hostWriteReg, busy_of_idle h]

/-- Whatever a host write to a register does. -/
theorem hostWrite_next {off width : Nat} {v : Word} (h : hostWrite off width v s = .next t) :
    t = s ∨ ∃ r, t = s.hostWriteReg r v ∧ off = r.offset := by
  simp only [hostWrite] at h
  split at h
  · cases h
  · split at h
    · split at h
      · cases h; exact .inl rfl
      · rename_i r hr
        cases h
        refine .inr ⟨r, rfl, ?_⟩
        exact regAt_some hr
    · cases h

/-- The ways a write to a named register leaves the state. -/
theorem hostWriteReg_cases (s : State) (r : RegName) (v : Word) :
    s.hostWriteReg r v = s ∨ s.hostWriteReg r v = s.setOverrun false
      ∨ (s.phase = .run ∧ r ≠ .status ∧ s.hostWriteReg r v = s.setOverrun true)
      ∨ (s.phase = .idle ∧ r = .cmd ∧ s.hostWriteReg r v = s.issue v)
      ∨ (s.phase = .idle ∧ s.hostWriteReg r v = s.writeReg r v) := by
  by_cases hr : r = .status
  · subst hr
    simp only [State.hostWriteReg]
    split
    · exact .inr (.inl rfl)
    · exact .inl rfl
  · cases hp : s.phase <;> cases r <;> simp_all [State.hostWriteReg, State.busy]

/-- A read of a register changes nothing but the draw counter. -/
theorem hostRead_next {off width : Nat} {v : Word} (h : hostRead off width s = .next (v, t)) : t = s ∨ t = s.drew := by
  simp only [hostRead] at h
  split at h
  · cases h
  · split at h
    · split at h
      · cases h; exact .inl rfl
      · rename_i r hr
        split at h
        · cases r <;> simp only [State.readBusy] at h <;> (try split at h) <;> cases h <;> simp
        · cases h; exact .inl rfl
    · cases h

/-- A byte read changes nothing but the draw counter. -/
theorem hostReadByte_next {buf : Buffer} {a : Nat} {b : Byte} (h : hostReadByte buf a s = .next (b, t)) : t = s ∨ t = s.drew := by
  simp only [hostReadByte] at h
  split at h
  · split at h
    · cases h; exact .inr rfl
    · split at h
      · cases h
      · cases h; exact .inl rfl
  · cases h

/-- A byte write happens while idle, inside the buffer. -/
theorem hostWriteByte_next {buf : Buffer} {a : Nat} {b : Byte} (h : hostWriteByte buf a b s = .next t) :
    s.phase = .idle ∧ a < s.bufSize buf ∧ t = s.setByte buf a b := by
  simp only [hostWriteByte] at h
  split at h
  · cases h
  · rename_i hb
    split at h
    · cases h
      refine ⟨?_, ‹_›, rfl⟩
      cases hp : s.phase
      · rfl
      · simp [State.busy, hp] at hb
    · cases h

/-! ### What the command in progress writes -/

/-- A word that decodes selects its command. -/
theorem decode?_of_ok {w : Word} {i : Instr} (h : decode w = .ok i) : decode? w = some i := by simp [decode?, h]

/-- An illegal word selects none. -/
theorem decode?_of_error {w : Word} {e : DecodeError} (h : decode w = .error e) : decode? w = none := by simp [decode?, h]

/-- While a legal command is in progress, the interval is the command's stored bytes. -/
theorem outputBytes_of_ok {i : Instr} (h : decode s.pend = .ok i) : outputBytes s = storedBytes i s := by
  simp only [outputBytes, decode?_of_ok h]
  cases i <;> rfl

/-- An offset outside the stored bytes of the command in progress, if there is one, is outside the interval. -/
theorem not_inOutputInterval {a : Nat}
    (h : ∀ i, decode s.pend = .ok i → a < s.outPtr.toNat ∨ s.outPtr.toNat + storedBytes i s ≤ a) : inOutputInterval s a = false := by
  cases hd : decode s.pend with
  | ok i =>
    have := h i hd
    rw [← outputBytes_of_ok hd] at this
    simp only [inOutputInterval, Bool.and_eq_false_iff, decide_eq_false_iff_not]
    omega
  | error e =>
    simp only [inOutputInterval, outputBytes, decode?_of_error hd, Bool.and_eq_false_iff, decide_eq_false_iff_not]
    omega

/-- The four fields of a STATUS word. -/
theorem statusWord_bits (busy err eos overrun : Bool) :
    (statusWord busy err eos overrun).getLsbD 0 = busy ∧ (statusWord busy err eos overrun).getLsbD 1 = err
      ∧ (statusWord busy err eos overrun).getLsbD 2 = eos ∧ (statusWord busy err eos overrun).getLsbD 3 = overrun := by
  cases busy <;> cases err <;> cases eos <;> cases overrun <;> decide

end Sys2Proof.Machine
end

