-- ==== Sys2Proof/Laws/PerInstr.lean ====
section
/-! SUPPORT. The per-instruction family CommandWord: a command is well-formed and its word is a legal command word by the independent check
of the field table (30_encoding.md R53), with the command's opcode and byte in their fields. -/

namespace Sys2Proof.Laws.CommandWord

/-- What is said of one command. -/
def Statement (i : Instr) : Prop :=
  i.wf = true ∧ commandWordOk (encode i) = true ∧ (encode i).toNat = 256 * (immOf i).toNat + (opcodeOf i).toNat

theorem crcInit : Statement .crcInit := by unfold Statement; decide
theorem crcByte (imm8 : Byte) : Statement (.crcByte imm8) := by
  have h1 := opField_toNat (encode (.crcByte imm8))
  have h2 := immField_toNat (encode (.crcByte imm8))
  have h3 := rsvField_toNat (encode (.crcByte imm8))
  rw [opField_encode] at h1
  rw [immField_encode] at h2
  rw [rsvField_encode] at h3
  simp only [opcodeOf, immOf] at h1 h2 h3
  have h4 : (2 : Byte).toNat = 2 := rfl
  have h5 : (0 : BitVec 16).toNat = 0 := rfl
  refine ⟨rfl, ?_, ?_⟩
  · simp [commandWordOk, assignedOpcodes, ← h1, ← h3]
  · simp only [opcodeOf, immOf]
    omega
theorem crcBuf : Statement .crcBuf := by unfold Statement; decide
theorem typeCheck : Statement .typeCheck := by unfold Statement; decide
theorem sigCheck : Statement .sigCheck := by unfold Statement; decide
theorem chunkDecode : Statement .chunkDecode := by unfold Statement; decide
theorem chunkNew : Statement .chunkNew := by unfold Statement; decide
theorem chunkEncode : Statement .chunkEncode := by unfold Statement; decide
theorem sigEmit : Statement .sigEmit := by unfold Statement; decide

end Sys2Proof.Laws.CommandWord
end

