-- ==== Sys2Proof/Laws/Step.lean ====
section
/-! SUPPORT. What one step of the machine can do, said once: the engine performs the latched word, the host performs one statement,
the platform resets, or nothing moves. -/

namespace Sys2Proof.Machine

variable {s t : State}

/-- What the host's part of the state may become in one statement: the block's state after a port operation, with a new host agent. -/
inductive HostMove (s : State) : HStmt → State → Prop where
  /-- A statement that touches the host only. -/
  | own {st : HStmt} (h : HostAgent) : HostMove s st (s.setHost h)
  /-- A register or buffer read: only the draw counter of the block's state may move. -/
  | read {st : HStmt} (h : HostAgent) : HostMove s st (s.drew.setHost h)
  /-- A register write that the port ignores. -/
  | wrote {off width : Nat} {e : HExpr} (r : RegName) (v : Word) (hr : off = r.offset) (h : HostAgent) :
      HostMove s (.wr off width e) ((s.hostWriteReg r v).setHost h)
  /-- A buffer write. -/
  | stored {buf : Buffer} {ea ev : HExpr} {a : Nat} (b : Byte) (hi : s.phase = .idle) (ha : a < s.bufSize buf) (h : HostAgent) :
      HostMove s (.wrb buf ea ev) ((s.setByte buf a b).setHost h)

theorem setHost_self (s : State) : s.setHost s.host = s := rfl

@[simp] theorem drew_setHost (s : State) (h : HostAgent) : (s.setHost h).drew = s.drew.setHost h := rfl

theorem hostJump_next {l : Nat} (h : hostJump l s = .next t) : ∃ k, t = s.setHost { s.host with pc := k } := by
  simp only [hostJump] at h
  split at h
  · cases h
  · cases h; exact ⟨_, rfl⟩

/-- Every way a host statement ends in a next state. -/
theorem execStmt_moves {st : HStmt} (h : execStmt st s = .next t) : HostMove s st t := by
  cases st with
  | wr off width v =>
    simp only [execStmt] at h
    split at h
    · rename_i u hu
      cases h
      rcases hostWrite_next hu with rfl | ⟨r, rfl, hr⟩
      · exact .own _
      · exact .wrote r _ hr _
    · cases h
    · cases h
  | rd off width x =>
    simp only [execStmt] at h
    split at h
    · rename_i v u hu
      cases h
      rcases hostRead_next hu with rfl | rfl
      · exact .own _
      · exact .read _
    · cases h
    · cases h
  | wrb buf a v =>
    simp only [execStmt] at h
    split at h
    · rename_i u hu
      cases h
      obtain ⟨hi, ha, rfl⟩ := hostWriteByte_next hu
      exact .stored _ hi ha _
    · cases h
    · cases h
  | rdb buf a x =>
    simp only [execStmt] at h
    split at h
    · rename_i v u hu
      cases h
      rcases hostReadByte_next hu with rfl | rfl
      · exact .own _
      · exact .read _
    · cases h
    · cases h
  | wait =>
    simp only [execStmt] at h
    split at h
    · rename_i v u hu
      cases h
      rcases hostRead_next hu with hu | hu <;> subst hu
      · split
        · exact .own u.host
        · exact .own _
      · split
        · exact .read s.host
        · exact .read _
    · cases h
    · cases h
  | label l => cases h; exact .own _
  | ifGoto c l =>
    simp only [execStmt] at h
    split at h
    · obtain ⟨k, rfl⟩ := hostJump_next h; exact .own _
    · cases h; exact .own _
  | goto l => obtain ⟨k, rfl⟩ := hostJump_next h; exact .own _
  | fail e => cases h; exact .own _
  | accept => cases h; exact .own _
  | set x e => cases h; exact .own _
  | append l a o c => cases h; exact .own _
  | nextDesc i l a o c done =>
    simp only [execStmt] at h
    split at h
    · cases h; exact .own _
    · obtain ⟨k, rfl⟩ := hostJump_next h; exact .own _
  | clearList => cases h; exact .own _

/-- What one step can do, from the state u in which the plan of turns has been advanced. -/
inductive Moves (s : State) : State → Prop where
  /-- The engine performs a legal command. -/
  | command {i : Instr} {t : State} {rest : List Agent} (he : engineMoves s rest) (hd : decode? s.pend = some i)
      (h : Ends (s.setTurns rest) i t) : Moves s t
  /-- The engine raises IllegalCommand. -/
  | illegal {rest : List Agent} (he : engineMoves s rest) (hd : decode? s.pend = none) :
      Moves s ((s.setTurns rest).raise .illegalCommand)
  /-- The host performs a statement. -/
  | statement {st : HStmt} {t : State} {rest : List Agent} (he : hostMoves s st rest)
      (h : execStmt st (s.setTurns rest) = .next t) : Moves s t
  /-- The platform resets the block. -/
  | reset {rest : List Agent} (he : s.turns = .reset :: rest) : Moves s (s.setTurns rest).resetInput
  /-- An agent with nothing to do had the turn. -/
  | nothing (rest : List Agent) : Moves s (s.setTurns rest)

theorem performPend_moves {rest : List Agent} (he : engineMoves s rest) (h : performPend (s.setTurns rest) = .next t) : Moves s t := by
  simp only [performPend, State.setTurns_pend] at h
  split at h
  · exact .command he ‹_› (exec_ends h)
  · cases h; exact .illegal he ‹_›

theorem hostStep_moves {rest : List Agent}
    (hr : s.turns = .host :: rest ∨ (s.turns = [] ∧ s.phase = .idle ∧ rest = []))
    (h : hostStep (s.setTurns rest) = .next t) : Moves s t := by
  simp only [hostStep, State.setTurns_host] at h
  split at h
  · rename_i hs
    split at h
    · exact .statement ⟨hs, ‹_›, hr⟩ h
    · cases h; exact .nothing _
  · cases h; exact .nothing _
  · cases h; exact .nothing _

/-- Every way a step ends in a next state. -/
theorem step_moves (h : step s = .next t) : Moves s t := by
  have self : s.turns = [] → s.setTurns [] = s := fun ht => by rw [← ht]; rfl
  simp only [step] at h
  split at h
  · rename_i ht
    rw [← self ht] at h
    cases hp : s.phase with
    | run =>
      simp only [State.busy, State.setTurns_phase, hp, decide_true, if_true, engineStep] at h
      exact performPend_moves ⟨hp, .inr ⟨ht, rfl⟩⟩ h
    | idle =>
      simp only [State.busy, State.setTurns_phase, hp, reduceCtorEq, decide_false, Bool.false_eq_true, if_false] at h
      exact hostStep_moves (.inr ⟨ht, hp, rfl⟩) h
  · rename_i ts ht
    simp only [engineStep, State.setTurns_phase] at h
    split at h
    · exact performPend_moves ⟨‹_›, .inl ht⟩ h
    · cases h; exact .nothing _
  · rename_i ts ht
    exact hostStep_moves (.inl ht) h
  · rename_i ts ht
    cases h; exact .reset ht

/-- A step on the engine's turn performs the latched word. -/
theorem step_of_engineMoves {rest : List Agent} (h : engineMoves s rest) : step s = performPend (s.setTurns rest) := by
  obtain ⟨hp, ht | ⟨ht, rfl⟩⟩ := h
  · simp [step, ht, engineStep, hp]
  · have self : s.setTurns [] = s := by rw [← ht]; rfl
    simp [step, ht, engineStep, hp, State.busy, self]

/-- A step on the host's turn performs the statement at its position. -/
theorem step_of_hostMoves {st : HStmt} {rest : List Agent} (h : hostMoves s st rest) : step s = execStmt st (s.setTurns rest) := by
  obtain ⟨hs, hst, ht | ⟨ht, hp, rfl⟩⟩ := h
  · simp [step, ht, hostStep, hs, hst]
  · have self : s.setTurns [] = s := by rw [← ht]; rfl
    simp [step, ht, hostStep, hs, hst, State.busy, hp, self]

end Sys2Proof.Machine
end

