-- ==== Sys2Proof/Tests/Slice0.lean ====
section
/-! SUPPORT. The model's own tests: the well-formedness checks with the term each refuses, decoding of words written out bit by bit from
30_encoding.md R53 and R54, one-step tests whose expected values are the vectors of 95_test_vectors.md, and for every obligation with
hypotheses a concrete state and operands that meet them. -/

namespace Sys2Proof.Tests

open Sys2Proof.Machine

/-! ### Helpers -/

/-- The conventions of 95_test_vectors.md part 2: IBUF_SIZE = 64, OBUF_SIZE = 32. -/
def cfg : Config := { ibufSize := 64, obufSize := 32, regBase := 0, ibufBase := 0, obufBase := 0 }

/-- The reset state with bytes written to IBUF from an offset. -/
def loaded (a : Nat) (bs : List Byte) : State := { State.resetWith cfg with ibuf := Memory.writeBytes [] a bs }

/-- The IEND frame of V3. -/
def iend : List Byte := [0x00, 0x00, 0x00, 0x00, 0x49, 0x45, 0x4E, 0x44, 0xAE, 0x42, 0x60, 0x82]

/-- "hello". -/
def hello : List Byte := [0x68, 0x65, 0x6C, 0x6C, 0x6F]

/-- The teSt frame of V3. -/
def teSt : List Byte := [0x00, 0x00, 0x00, 0x05, 0x74, 0x65, 0x53, 0x74] ++ hello ++ [0xA1, 0xF1, 0xC5, 0xCE]

/-- The state of V3.2: the teSt frame at offset 0, IN_LEN = 17. -/
def frameState : State := { loaded 0 teSt with inLen := 17 }

/-- The state of V5.1: the current chunk is teSt "hello", its payload at IBUF[8..12]. -/
def chunkState : State := { loaded 8 hello with chkType := 0x74655374, chkDofs := 8, chkLen := 5, chkCrc := 0xA1F1C5CE }

/-- A state with a word latched and the engine in RUN, no turn planned. -/
def running (w : Word) (s : State) : State := { s with phase := .run, pend := w }

/-- A state whose host has a program, no turn planned. -/
def hosting (p : List HStmt) (s : State) : State := s.withProgram p

/-- Does an outcome go on in a state with a property? -/
def goesOn (r : Result) (p : State → Bool) : Bool :=
  match r with
  | .next t => p t
  | .fault _ => false
  | .refused _ => false

/-- An outcome that goes on gives the state a witness needs. -/
theorem exists_of_goesOn {r : Result} {p : State → Bool} (h : goesOn r p = true) : ∃ t, r = .next t ∧ p t = true := by
  cases r with
  | next t => exact ⟨t, rfl, h⟩
  | fault f => cases h
  | refused f => cases h

/-! ### Well-formedness: what each check refuses -/

/-- R53: a nonzero rsv, an unassigned opcode and a nonzero imm8 outside CRC_BYTE are refused. -/
theorem test_commandWordOk_refuses :
    commandWordOk 0x00010001 = false ∧ commandWordOk 0x00000022 = false ∧ commandWordOk 0x00000110 = false := by decide

theorem test_commandWordOk_accepts : commandWordOk 0x0000FF02 = true ∧ commandWordOk 0x00000032 = true := by decide

/-- R57: every byte is a legal operand of CRC_BYTE. -/
theorem test_instr_wf : Instr.wf (.crcByte 0xFF) = true ∧ Instr.wf .sigEmit = true := by decide

/-- R12: a buffer larger than 2^32 is refused, one of 2^32 bytes is legal. -/
theorem test_config_wf :
    Config.wf { cfg with ibufSize := 2 ^ 32 + 1 } = false ∧ Config.wf { cfg with obufSize := 2 ^ 32 + 1 } = false
      ∧ Config.wf { cfg with ibufSize := 2 ^ 32, obufSize := 0 } = true := by decide

/-- R62: a jump without its label and a label declared twice are refused. -/
theorem test_hostProgram_labels :
    hostProgramOk [.goto 1] = false ∧ hostProgramOk [.nextDesc (.lit 0) 0 0 0 0 1] = false
      ∧ hostProgramOk [.ifGoto (.eq (.lit 0) (.lit 0)) 1, .label 2] = false ∧ hostProgramOk [.label 1, .label 1] = false := by decide

/-- R20, R21: an access of another width, another alignment or beyond the window is refused. -/
theorem test_hostProgram_access :
    hostProgramOk [.wr 0x10 8 (.lit 0)] = false ∧ hostProgramOk [.rd 0x12 32 0] = false
      ∧ hostProgramOk [.rd 0x40 32 0] = false := by decide

/-- R99, R101: the two procedures are well-formed host programs. -/
theorem test_hostProgram_procedures : hostProgramOk parseProgram = true ∧ hostProgramOk serializeProgram = true := by decide

/-! ### Decoding: words written out from R53 and R54, rsv then imm8 then op -/

theorem test_decode_crcInit : decode? 0b0000000000000000_00000000_00000001 = some .crcInit := by decide

theorem test_decode_crcByte : decode? 0b0000000000000000_00110001_00000010 = some (.crcByte 0b00110001) := by decide

theorem test_decode_crcBuf : decode? 0b0000000000000000_00000000_00000011 = some .crcBuf := by decide

theorem test_decode_typeCheck : decode? 0b0000000000000000_00000000_00010000 = some .typeCheck := by decide

theorem test_decode_sigCheck : decode? 0b0000000000000000_00000000_00100000 = some .sigCheck := by decide

theorem test_decode_chunkDecode : decode? 0b0000000000000000_00000000_00100001 = some .chunkDecode := by decide

theorem test_decode_chunkNew : decode? 0b0000000000000000_00000000_00110000 = some .chunkNew := by decide

theorem test_decode_chunkEncode : decode? 0b0000000000000000_00000000_00110001 = some .chunkEncode := by decide

theorem test_decode_sigEmit : decode? 0b0000000000000000_00000000_00110010 = some .sigEmit := by decide

/-- V7: the reason each illegal word is refused for. -/
theorem test_decode_illegal :
    decode 0x00000000 = .error .unassignedOpcode ∧ decode 0x80000002 = .error .rsvNonzero
      ∧ decode 0x00000121 = .error .immNonzero ∧ decode 0xFFFFFFFF = .error .rsvNonzero := ⟨rfl, rfl, rfl, rfl⟩

/-- The table's numbering: a word above 32 bits is no command word, bits at nbits and above are dropped. -/
theorem test_decodeTableWord :
    decodeTableWord 32 0x00003102 = some (.crcByte 0x31) ∧ decodeTableWord 64 0x100000001 = none
      ∧ decodeTableWord 8 0x101 = some .crcInit := by decide

/-! ### The CRC and the views -/

/-- R71: the catalogue check value. -/
theorem test_crc32_check : crc32 [0x31, 0x32, 0x33, 0x34, 0x35, 0x36, 0x37, 0x38, 0x39] = 0xCBF43926 := by decide +kernel

/-- R79: crc_chunk of IEND and the wire order of its bytes. -/
theorem test_crcChunk_iend : be32bytes (crcChunk 0x49454E44 []) = [0xAE, 0x42, 0x60, 0x82] := by decide

/-- V1.1, V1.2, V1.13, V1.19: TSTAT. -/
theorem test_tstat :
    tstatOf 0x52755374 = 0x1B ∧ tstatOf 0x52757374 = 0x13 ∧ tstatOf 0x61426344 = 0x05 ∧ tstatOf 0x40414141 = 0x0E := by
  decide

/-- R130: STATUS, TSTAT and CRC_VALUE right after reset. -/
theorem test_reset_views :
    State.reset.readReg .status = 0x00000004 ∧ State.reset.readReg .tstat = 0x0000000E
      ∧ State.reset.readReg .crcValue = 0x00000000 := by decide

/-! ### One step per test -/

/-- V2.3. -/
theorem test_crcInit :
    goesOn (exec .crcInit { loaded 0 [] with crcState := 0x12345678, errcode := 9 })
      (fun t => decide (t.crcState = 0xFFFFFFFF) && decide (t.errcode = 0)) = true := by decide

/-- V2.2, the step from 0x12345678. -/
theorem test_crcByte :
    goesOn (exec (.crcByte 0x00) { loaded 0 [] with crcState := 0x12345678 }) (fun t => decide (t.crcState = 0x5ECCCD58)) = true := by
  decide

/-- V2.7d. -/
theorem test_crcBuf :
    goesOn (exec .crcBuf { loaded 0 hello with chkLen := 5 }) (fun t => decide (t.crcState = 0xC9EF5979)) = true := by decide

/-- V2.7c: the sum does not wrap. -/
theorem test_crcBuf_range :
    goesOn (exec .crcBuf { loaded 0 hello with chkDofs := 0xFFFFFFFF, chkLen := 2 })
      (fun t => decide (t.errcode = 9) && decide (t.crcState = 0xFFFFFFFF)) = true := by decide

/-- V1.2: a letter code with RSV_VALID 0 passes. -/
theorem test_typeCheck :
    goesOn (exec .typeCheck { loaded 0 [] with chkType := 0x52757374 }) (fun t => decide (t.errcode = 0)) = true := by decide

/-- V1.20. -/
theorem test_typeCheck_nonAscii :
    goesOn (exec .typeCheck { loaded 0 [] with chkType := 0xC1414141 }) (fun t => decide (t.errcode = 1)) = true := by decide

/-- V6.8: SIG_CHECK ignores IN_PTR. -/
theorem test_sigCheck :
    goesOn (exec .sigCheck { loaded 0 [0x89, 0x50, 0x4E, 0x47, 0x0D, 0x0A, 0x1A, 0x0A] with inLen := 20, inPtr := 30 })
      (fun t => decide (t.errcode = 0) && decide (t.inPtr = 8)) = true := by decide

/-- V6.3: a short input is not read. -/
theorem test_sigCheck_short :
    goesOn (exec .sigCheck { loaded 0 [] with inLen := 7 }) (fun t => decide (t.errcode = 7) && decide (t.inPtr = 0)) = true := by
  decide

/-- V3.2. -/
theorem test_chunkDecode :
    goesOn (exec .chunkDecode frameState)
      (fun t => decide (t.chkLen = 5) && decide (t.chkType = 0x74655374) && decide (t.chkDofs = 8)
        && decide (t.chkCrc = 0xA1F1C5CE) && decide (t.inPtr = 17)) = true := by decide +kernel

/-- V3.8: L + 12 = 2^32 does not wrap. -/
theorem test_chunkDecode_length :
    goesOn (exec .chunkDecode
        { loaded 0 [0xFF, 0xFF, 0xFF, 0xF4, 0x49, 0x45, 0x4E, 0x44, 0x00, 0x00, 0x00, 0x00] with inLen := 12 })
      (fun t => decide (t.errcode = 3) && decide (t.inPtr = 0)) = true := by decide

/-- V4.1. -/
theorem test_chunkNew :
    goesOn (exec .chunkNew { chunkState with chkCrc := 0 }) (fun t => decide (t.chkCrc = 0xA1F1C5CE)) = true := by decide +kernel

/-- V4.9: the range check before the type check. -/
theorem test_chunkNew_range :
    goesOn (exec .chunkNew { chunkState with chkType := 0, chkDofs := 60 }) (fun t => decide (t.errcode = 9)) = true := by
  decide

/-- V5.2: a frame that ends exactly at OBUF_SIZE. -/
theorem test_chunkEncode :
    goesOn (exec .chunkEncode { chunkState with outPtr := 15 })
      (fun t => decide (t.obuf.readRange 15 17 = some teSt) && decide (t.outPtr = 32)) = true := by decide

/-- V5.6: the OBUF check before the type check. -/
theorem test_chunkEncode_range :
    goesOn (exec .chunkEncode { chunkState with chkType := 0x74653574, outPtr := 16 })
      (fun t => decide (t.errcode = 9) && decide (t.obuf = [])) = true := by decide

/-- V6.11. -/
theorem test_sigEmit :
    goesOn (exec .sigEmit { loaded 0 [] with outPtr := 24 })
      (fun t => decide (t.obuf.readRange 24 8 = some [0x89, 0x50, 0x4E, 0x47, 0x0D, 0x0A, 0x1A, 0x0A]) && decide (t.outPtr = 32))
      = true := by decide

/-- V6.12. -/
theorem test_sigEmit_range :
    goesOn (exec .sigEmit { loaded 0 [] with outPtr := 25 }) (fun t => decide (t.errcode = 9) && decide (t.outPtr = 25)) = true := by
  decide

/-- V7.7 as the first step after reset: IllegalCommand. -/
theorem test_step_illegal :
    goesOn (step (State.reset.withFetchWord 32 0x00000110)) (fun t => decide (t = { State.reset with pend := 0x110, errcode := 8 }))
      = true := by decide

/-- P1 step 2 as the first step after reset. -/
theorem test_step_fetchWord :
    goesOn (step (State.reset.withFetchWord 32 0x00003102)) (fun t => decide (t.crcState = 0x7C231048)) = true := by decide

/-- V9.1 outcome B, its first host access: a register write that meets BUSY = 1 is dropped and sets OVERRUN. -/
theorem test_host_write_while_busy :
    goesOn (hostWrite 0x20 32 0x30303030 (running 0x00000010 { loaded 0 [] with chkType := 0x52755374 }))
      (fun t => decide (t.chkType = 0x52755374) && t.overrun) = true := by decide

/-- R141: the host's list is observed (the second descriptor of P2's end state). -/
theorem test_observe_list :
    let h : HostAgent := { HostAgent.init with list := [⟨0, 0x49454E44, 41, 0xAE426082⟩] }
    ((loaded 0 []).setHost h).observe.list = [⟨0, 0x49454E44, 41, 0xAE426082⟩] := rfl

/-- R115: the three model faults. -/
theorem test_host_faults :
    hostRead 0x12 32 (loaded 0 []) = .fault .hostBadRegAccess ∧ hostReadByte .ibuf 0 (loaded 0 []) = .fault .unwrittenRead
      ∧ hostWriteByte .ibuf 0 1 (running 0x00000001 (loaded 0 [])) = .fault .hostBufWriteBusy := ⟨rfl, rfl, rfl⟩

/-! ### Witnesses: states and operands that meet the hypotheses of each obligation -/

theorem witness_OpcodeMapWordsDecode : (0x00000004 : Word).toNat % 256 ∉ [0x01, 0x02, 0x03, 0x10, 0x20, 0x21, 0x30, 0x31, 0x32] := by
  decide

theorem witness_DecodeChecksInOrder_1 : (0x00010001 : Word).toNat / 65536 ≠ 0 := by decide

theorem witness_DecodeChecksInOrder_2 :
    (0x0000FF33 : Word).toNat / 65536 = 0 ∧ (0x0000FF33 : Word).toNat % 256 ∉ assignedOpcodes := by decide

theorem witness_DecodeChecksInOrder_3 :
    (0x00000132 : Word).toNat / 65536 = 0 ∧ (0x00000132 : Word).toNat % 256 ∈ assignedOpcodes
      ∧ (0x00000132 : Word).toNat % 256 ≠ 2 ∧ (0x00000132 : Word).toNat / 256 % 256 ≠ 0 := by decide

theorem witness_DecodeChecksInOrder_4 :
    (0x0000FF02 : Word).toNat / 65536 = 0 ∧ (0x0000FF02 : Word).toNat % 256 ∈ assignedOpcodes
      ∧ ((0x0000FF02 : Word).toNat % 256 = 2 ∨ (0x0000FF02 : Word).toNat / 256 % 256 = 0) := by decide

theorem witness_DecodeChecksInOrder_5 :
    engineMoves (running 0x00000110 (loaded 0 [])) [] ∧ decode (running 0x00000110 (loaded 0 [])).pend = .error .immNonzero :=
  ⟨⟨rfl, .inr ⟨rfl, rfl⟩⟩, rfl⟩

theorem witness_StepRunsDecodedCommand :
    engineMoves (running 0x0000FF02 (loaded 0 [])) [] ∧ decode (running 0x0000FF02 (loaded 0 [])).pend = .ok (.crcByte 0xFF) :=
  ⟨⟨rfl, .inr ⟨rfl, rfl⟩⟩, rfl⟩

/-- The other form of the engine's turn: planned first, with the host's turn after it. -/
theorem witness_StepRunsDecodedCommand_planned :
    engineMoves { running 0x00000001 (loaded 0 []) with turns := [.engine, .host] } [.host]
      ∧ decode (0x00000001 : Word) = .ok .crcInit := ⟨⟨rfl, .inl rfl⟩, rfl⟩

theorem witness_EngineStepCompletesOrRaises :
    engineMoves (running 0x00000010 (loaded 0 [])) [] ∧ ∃ t, step (running 0x00000010 (loaded 0 [])) = .next t :=
  ⟨⟨rfl, .inr ⟨rfl, rfl⟩⟩, ⟨_, rfl⟩⟩

theorem witness_IssuedCommandIsPerformed :
    let s : State := { running 0x00000001 (loaded 0 []) with turns := [.host, .host] }
    s.phase = .run ∧ Agent.reset ∉ s.turns := by decide

theorem witness_SingleBitFlipChangesCrc : 7 < 8 := by decide

/-- V2.7b: the first sum that does not fit. -/
theorem witness_CrcBufResult_1 :
    { loaded 0 [] with chkDofs := 60, chkLen := 5 : State }.cfg.ibufSize < (60 : Word).toNat + (5 : Word).toNat := by decide

/-- A run that ends exactly at IBUF_SIZE. -/
theorem witness_CrcBufResult_2 :
    let s : State := { loaded 59 hello with chkDofs := 59, chkLen := 5 }
    s.chkDofs.toNat + s.chkLen.toNat ≤ s.cfg.ibufSize ∧ hello.length = s.chkLen.toNat ∧ s.ibuf.Holds s.chkDofs.toNat hello := by
  unfold Memory.Holds
  decide

/-- V2.7a: an empty run at IBUF_SIZE. -/
theorem witness_CrcBufResult_2_empty :
    let s : State := { loaded 0 [] with chkDofs := 64 }
    s.chkDofs.toNat + s.chkLen.toNat ≤ s.cfg.ibufSize ∧ ([] : List Byte).length = s.chkLen.toNat
      ∧ s.ibuf.Holds s.chkDofs.toNat [] := by
  unfold Memory.Holds
  decide

theorem witness_CrcBufEqualsCrcBytes : ∃ t, exec .crcBuf chunkState = .next t ∧ decide (t.errcode = 0) = true :=
  exists_of_goesOn (by decide)

theorem witness_TypeCheckResult_1 :
    ∀ b ∈ be32bytes 0x417A5A61, (0x41 ≤ b.toNat ∧ b.toNat ≤ 0x5A) ∨ (0x61 ≤ b.toNat ∧ b.toNat ≤ 0x7A) := by decide

theorem witness_TypeCheckResult_2 :
    (∃ b ∈ be32bytes 0x40414141, ¬ ((0x41 ≤ b.toNat ∧ b.toNat ≤ 0x5A) ∨ (0x61 ≤ b.toNat ∧ b.toNat ≤ 0x7A)))
      ∧ ∃ b ∈ be32bytes 0x4141415B, ¬ ((0x41 ≤ b.toNat ∧ b.toNat ≤ 0x5A) ∨ (0x61 ≤ b.toNat ∧ b.toNat ≤ 0x7A)) := by
  decide

theorem witness_SigCheckResult_1 : { loaded 0 [] with inLen := 65 : State }.cfg.ibufSize < (65 : Word).toNat := by decide

theorem witness_SigCheckResult_2 : (7 : Word).toNat ≤ (loaded 0 []).cfg.ibufSize ∧ (7 : Word).toNat < 8 := by decide

/-- V6.4: the last bit flipped, at IN_LEN = 8. -/
theorem witness_SigCheckResult_3 :
    let bs : List Byte := [0x89, 0x50, 0x4E, 0x47, 0x0D, 0x0A, 0x1A, 0x0B]
    let s : State := { loaded 0 bs with inLen := 8 }
    s.inLen.toNat ≤ s.cfg.ibufSize ∧ 8 ≤ s.inLen.toNat ∧ bs.length = 8 ∧ s.ibuf.Holds 0 bs
      ∧ bs ≠ [0x89, 0x50, 0x4E, 0x47, 0x0D, 0x0A, 0x1A, 0x0A] := by
  unfold Memory.Holds
  decide

/-- V6.6, and IN_LEN = IBUF_SIZE. -/
theorem witness_SigCheckResult_4 :
    let bs : List Byte := [0x89, 0x50, 0x4E, 0x47, 0x0D, 0x0A, 0x1A, 0x0A]
    (8 : Word).toNat ≤ (loaded 0 bs).cfg.ibufSize ∧ 8 ≤ (8 : Word).toNat ∧ (64 : Word).toNat ≤ (loaded 0 bs).cfg.ibufSize
      ∧ (loaded 0 bs).ibuf.Holds 0 bs := by
  unfold Memory.Holds
  decide

/-- V6.12 and V6.13. -/
theorem witness_SigEmitResult_1 :
    (loaded 0 []).cfg.obufSize < (25 : Word).toNat + 8 ∧ (loaded 0 []).cfg.obufSize < (0xFFFFFFFC : Word).toNat + 8 := by decide

theorem witness_SigEmitResult_2 : (24 : Word).toNat + 8 ≤ (loaded 0 []).cfg.obufSize := by decide

theorem witness_DecodeAcceptsGoodFrame :
    hello.length = (5 : Word).toNat ∧ letters 0x74655374 = true ∧ frameState.inLen.toNat ≤ frameState.cfg.ibufSize
      ∧ frameState.inPtr.toNat + 12 + (5 : Word).toNat ≤ frameState.inLen.toNat
      ∧ frameState.ibuf.Holds frameState.inPtr.toNat
          (be32bytes 5 ++ be32bytes 0x74655374 ++ hello ++ be32bytes (crcChunk 0x74655374 hello)) := by
  unfold Memory.Holds
  decide +kernel

/-- The empty frame that fills the input exactly (V3.1). -/
theorem witness_DecodeAcceptsGoodFrame_empty :
    let s : State := { loaded 0 iend with inLen := 12 }
    ([] : List Byte).length = (0 : Word).toNat ∧ letters 0x49454E44 = true ∧ s.inLen.toNat ≤ s.cfg.ibufSize
      ∧ s.inPtr.toNat + 12 + (0 : Word).toNat ≤ s.inLen.toNat
      ∧ s.ibuf.Holds s.inPtr.toNat (be32bytes 0 ++ be32bytes 0x49454E44 ++ [] ++ be32bytes (crcChunk 0x49454E44 [])) := by
  unfold Memory.Holds
  decide

/-- V3.16 and V3.17. -/
theorem witness_DecodeRaisesInOrder_1 :
    (12 : Word).toNat < (13 : Word).toNat ∧ (loaded 0 iend).cfg.ibufSize < (65 : Word).toNat := by decide

/-- V3.3 and V3.4: avail 0 and avail 11. -/
theorem witness_DecodeRaisesInOrder_2 :
    (12 : Word).toNat ≤ (loaded 0 iend).cfg.ibufSize ∧ (12 : Word).toNat - (12 : Word).toNat < 12
      ∧ (1 : Word).toNat ≤ (12 : Word).toNat ∧ (12 : Word).toNat - (1 : Word).toNat < 12 := by decide

/-- V3.5 (avail 12, L 1) and V3.8 (L + 12 = 2^32). -/
theorem witness_DecodeRaisesInOrder_3 :
    let s : State := { loaded 0 (be32bytes 1 ++ iend.drop 4) with inLen := 12 }
    let u : State := { loaded 0 (be32bytes 0xFFFFFFF4 ++ iend.drop 4) with inLen := 12 }
    s.inLen.toNat ≤ s.cfg.ibufSize ∧ s.inPtr.toNat + 12 ≤ s.inLen.toNat ∧ s.ibuf.Holds s.inPtr.toNat (be32bytes 1)
      ∧ s.inLen.toNat - s.inPtr.toNat < (1 : Word).toNat + 12
      ∧ u.ibuf.Holds u.inPtr.toNat (be32bytes 0xFFFFFFF4) ∧ u.inLen.toNat - u.inPtr.toNat < (0xFFFFFFF4 : Word).toNat + 12 := by
  unfold Memory.Holds
  decide

/-- V3.18: the last type byte is no letter. -/
theorem witness_DecodeRaisesInOrder_4 :
    let s : State := { loaded 0 (be32bytes 0 ++ be32bytes 0x49454EC4 ++ be32bytes 0) with inLen := 12 }
    s.inLen.toNat ≤ s.cfg.ibufSize ∧ s.inPtr.toNat + 12 + (0 : Word).toNat ≤ s.inLen.toNat
      ∧ s.ibuf.Holds s.inPtr.toNat (be32bytes 0 ++ be32bytes 0x49454EC4) ∧ letters 0x49454EC4 = false := by
  unfold Memory.Holds
  decide

/-- V3.12: one bit of the CRC field flipped. -/
theorem witness_DecodeRaisesInOrder_5 :
    let s : State := { loaded 0 (be32bytes 5 ++ be32bytes 0x74655374 ++ hello ++ be32bytes 0xA1F1C5CF) with inLen := 17 }
    hello.length = (5 : Word).toNat ∧ s.inLen.toNat ≤ s.cfg.ibufSize ∧ s.inPtr.toNat + 12 + (5 : Word).toNat ≤ s.inLen.toNat
      ∧ s.ibuf.Holds s.inPtr.toNat (be32bytes 5 ++ be32bytes 0x74655374 ++ hello ++ be32bytes 0xA1F1C5CF)
      ∧ letters 0x74655374 = true ∧ crcChunk 0x74655374 hello ≠ 0xA1F1C5CF := by
  unfold Memory.Holds
  decide +kernel

/-- A decode that ends, one for each code: 2, 3, 1, 4, and 9 for each of its two conditions (V3.16, V3.17). -/
theorem witness_DecodeErrorsExactlyWhen :
    (∃ t, exec .chunkDecode { loaded 0 iend with inLen := 11 } = .next t ∧ decide (t.errcode = 2) = true)
      ∧ (∃ t, exec .chunkDecode { loaded 0 (be32bytes 1 ++ iend.drop 4) with inLen := 12 } = .next t ∧ decide (t.errcode = 3) = true)
      ∧ (∃ t, exec .chunkDecode { loaded 0 (be32bytes 0 ++ be32bytes 0x74653574 ++ be32bytes 0) with inLen := 12 } = .next t
          ∧ decide (t.errcode = 1) = true)
      ∧ (∃ t, exec .chunkDecode { loaded 0 (be32bytes 0 ++ be32bytes 0x49454E44 ++ be32bytes 0) with inLen := 12 } = .next t
          ∧ decide (t.errcode = 4) = true)
      ∧ (∃ t, exec .chunkDecode { loaded 0 iend with inLen := 12, inPtr := 13 } = .next t ∧ decide (t.errcode = 9) = true)
      ∧ ∃ t, exec .chunkDecode { loaded 0 iend with inLen := 65 } = .next t ∧ decide (t.errcode = 9) = true :=
  ⟨exists_of_goesOn (by decide), exists_of_goesOn (by decide), exists_of_goesOn (by decide),
    exists_of_goesOn (by decide), exists_of_goesOn (by decide), exists_of_goesOn (by decide)⟩

theorem witness_DecodeReadsOnlyTheInput : frameState.ibuf.Written 0 frameState.inLen.toNat := by
  unfold Memory.Written
  decide

/-- Two states that differ in the byte just past the input, and one pair whose decode faults. -/
theorem witness_DecodeReadsOnlyTheInput_2 :
    let u : State := { frameState with ibuf := frameState.ibuf.write 17 0xFF, chkCrc := 7 }
    let v : State := { loaded 0 [0x00, 0x00, 0x00] with inLen := 12 }
    (∀ a, a < frameState.inLen.toNat → frameState.ibuf.read a = u.ibuf.read a) ∧ frameState.ibuf.read 17 ≠ u.ibuf.read 17
      ∧ (∃ t, exec .chunkDecode frameState = .next t ∧ decide (t.errcode = 0) = true)
      ∧ (∃ t, exec .chunkDecode { frameState with inLen := 11 } = .next t ∧ decide (t.errcode ≠ 0) = true)
      ∧ exec .chunkDecode v = .fault .unwrittenRead :=
  ⟨by decide, by decide, exists_of_goesOn (by decide +kernel), exists_of_goesOn (by decide), rfl⟩

/-- A successful decode; it serves DecodeAdvances, ChunkRoundTrip and FlippedPayloadBitIsCaught too. -/
theorem witness_DecodeAdvances : ∃ t, exec .chunkDecode frameState = .next t ∧ decide (t.errcode = 0) = true :=
  exists_of_goesOn (by decide +kernel)

/-- V5.2: the frame encoded again ends exactly at OBUF_SIZE. -/
theorem witness_ChunkRoundTrip :
    ∃ t, exec .chunkDecode frameState = .next t
      ∧ (decide (t.errcode = 0) && decide ((15 : Word).toNat + 12 + t.chkLen.toNat ≤ frameState.cfg.obufSize)) = true :=
  exists_of_goesOn (by decide +kernel)

/-- The last bit of the last payload byte. -/
theorem witness_FlippedPayloadBitIsCaught :
    (∃ t, exec .chunkDecode frameState = .next t ∧ (decide (t.errcode = 0) && decide (4 < t.chkLen.toNat)) = true) ∧ 7 < 8
      ∧ frameState.ibuf.read (frameState.inPtr.toNat + 8 + 4) = some 0x6F :=
  ⟨exists_of_goesOn (by decide +kernel), by decide, by decide⟩

/-- V4.8, V4.6, and V4.1 with the payload ending at IBUF_SIZE. -/
theorem witness_ChunkNewResult_1 : (loaded 0 []).cfg.ibufSize < (60 : Word).toNat + (5 : Word).toNat := by decide

theorem witness_ChunkNewResult_2 :
    chunkState.chkDofs.toNat + chunkState.chkLen.toNat ≤ chunkState.cfg.ibufSize ∧ letters 0x00000000 = false := by decide

theorem witness_ChunkNewResult_3 :
    let s : State := { loaded 59 hello with chkType := 0x74655374, chkDofs := 59, chkLen := 5 }
    s.chkDofs.toNat + s.chkLen.toNat ≤ s.cfg.ibufSize ∧ letters s.chkType = true ∧ hello.length = s.chkLen.toNat
      ∧ s.ibuf.Holds s.chkDofs.toNat hello := by
  unfold Memory.Holds
  decide

/-- V5.8 and V5.3: each interval alone does not fit. -/
theorem witness_ChunkEncodeResult_1 :
    chunkState.cfg.ibufSize < (60 : Word).toNat + chunkState.chkLen.toNat
      ∧ chunkState.cfg.obufSize < (16 : Word).toNat + 12 + chunkState.chkLen.toNat := by decide

theorem witness_ChunkEncodeResult_2 :
    let s : State := { chunkState with chkType := 0x74653574 }
    s.chkDofs.toNat + s.chkLen.toNat ≤ s.cfg.ibufSize ∧ s.outPtr.toNat + 12 + s.chkLen.toNat ≤ s.cfg.obufSize
      ∧ letters s.chkType = false := by decide

/-- V5.2: the last offset that fits. -/
theorem witness_ChunkEncodeResult_3 :
    let s : State := { chunkState with outPtr := 15 }
    s.chkDofs.toNat + s.chkLen.toNat ≤ s.cfg.ibufSize ∧ s.outPtr.toNat + 12 + s.chkLen.toNat ≤ s.cfg.obufSize
      ∧ letters s.chkType = true ∧ hello.length = s.chkLen.toNat ∧ s.ibuf.Holds s.chkDofs.toNat hello := by
  unfold Memory.Holds
  decide

theorem witness_RaiseWritesOnlyTheCode :
    (∃ t, exec .typeCheck (loaded 0 []) = .next t ∧ decide (t.errcode ≠ 0) = true)
      ∧ engineMoves (running 0x00000010 (loaded 0 [])) []
      ∧ ∃ t, step (running 0x00000010 (loaded 0 [])) = .next t ∧ decide (t.errcode ≠ 0) = true :=
  ⟨exists_of_goesOn (by decide), ⟨rfl, .inr ⟨rfl, rfl⟩⟩, exists_of_goesOn (by decide)⟩

theorem witness_CodesOfEachCommand : ∃ t, exec .chunkNew chunkState = .next t ∧ decide (t.errcode = 0) = true :=
  exists_of_goesOn (by decide)

/-- A storing command, a register outside its column and an offset on each side of the stored bytes. -/
theorem witness_CommandFrame :
    let s : State := { chunkState with outPtr := 2 }
    (∃ t, exec .chunkEncode s = .next t ∧ decide (t.errcode = 0) = true) ∧ writtenBy .chunkEncode .chkCrc = false
      ∧ 1 < s.outPtr.toNat ∧ s.outPtr.toNat + storedBytes .chunkEncode s ≤ 19 :=
  ⟨exists_of_goesOn (by decide), rfl, by decide, by decide⟩

/-- Two states that differ in a flag, a register that is no operand and OBUF. -/
theorem witness_CommandReadsOnlyItsOperands :
    let u : State := { chunkState with overrun := true, inPtr := 3, obuf := [(0, 1)] }
    chunkState.cfg = u.cfg ∧ chunkState.ibuf = u.ibuf
      ∧ (∀ r : RegName, operandOf .chunkEncode r = true → chunkState.readReg r = u.readReg r)
      ∧ operandOf .chunkEncode .outPtr = true ∧ writtenBy .chunkEncode .outPtr = true
      ∧ ∃ t, exec .chunkEncode chunkState = .next t ∧ decide (t.errcode = 0) = true :=
  ⟨rfl, rfl, fun r => by cases r <;> decide, rfl, rfl, exists_of_goesOn (by decide)⟩

theorem witness_CommandsEndOnWrittenInput :
    let s : State := { State.resetWith { cfg with ibufSize := 17 } with ibuf := frameState.ibuf }
    s.ibuf.Written 0 s.cfg.ibufSize := by
  unfold Memory.Written
  decide

/-- An unwritten byte at the end of the payload, for the three commands that read it. -/
theorem witness_UnwrittenReadFaults_payload :
    let s : State := { chunkState with chkLen := 6, outPtr := 14 }
    s.chkDofs.toNat + s.chkLen.toNat ≤ s.cfg.ibufSize ∧ 5 < s.chkLen.toNat ∧ s.ibuf.read (s.chkDofs.toNat + 5) = none
      ∧ letters s.chkType = true ∧ s.outPtr.toNat + 12 + s.chkLen.toNat ≤ s.cfg.obufSize := by decide

theorem witness_UnwrittenReadFaults_signature :
    let s : State := { loaded 0 [0x89, 0x50, 0x4E, 0x47, 0x0D, 0x0A, 0x1A] with inLen := 8 }
    s.inLen.toNat ≤ s.cfg.ibufSize ∧ 8 ≤ s.inLen.toNat ∧ 7 < 8 ∧ s.ibuf.read 7 = none := by decide

theorem witness_UnwrittenReadFaults_length :
    let s : State := { loaded 0 [0x00, 0x00, 0x00] with inLen := 12 }
    s.inLen.toNat ≤ s.cfg.ibufSize ∧ s.inPtr.toNat + 12 ≤ s.inLen.toNat ∧ 3 < 4 ∧ s.ibuf.read (s.inPtr.toNat + 3) = none := by
  decide

/-- The last byte of TYPE, then of DATA and of the CRC field, was never written. -/
theorem witness_UnwrittenReadFaults_frame :
    let s : State := { loaded 0 (be32bytes 5 ++ [0x74, 0x65, 0x53]) with inLen := 17 }
    let d : State := { loaded 0 (be32bytes 5 ++ be32bytes 0x74655374 ++ hello.take 4) with inLen := 17 }
    let c : State := { loaded 0 (teSt.take 16) with inLen := 17 }
    s.inLen.toNat ≤ s.cfg.ibufSize ∧ s.inPtr.toNat + 12 + (5 : Word).toNat ≤ s.inLen.toNat
      ∧ s.ibuf.Holds s.inPtr.toNat (be32bytes 5) ∧ s.ibuf.read (s.inPtr.toNat + 4 + 3) = none
      ∧ d.ibuf.Holds d.inPtr.toNat (be32bytes 5 ++ be32bytes 0x74655374) ∧ letters 0x74655374 = true
      ∧ 4 < (5 : Word).toNat + 4 ∧ d.ibuf.read (d.inPtr.toNat + 8 + 4) = none
      ∧ c.ibuf.Holds c.inPtr.toNat (be32bytes 5 ++ be32bytes 0x74655374) ∧ 8 < (5 : Word).toNat + 4
      ∧ c.ibuf.read (c.inPtr.toNat + 8 + 8) = none := by
  unfold Memory.Holds
  decide

/-- While SIG_EMIT is in progress at OUT_PTR = 1: the OBUF byte on each side of its interval, and an IBUF byte. -/
theorem witness_UnwrittenReadFaults_busy :
    let s : State := { running 0x00000032 (loaded 0 []) with outPtr := 1 }
    s.phase = .run ∧ decode s.pend = .ok .sigEmit ∧ 0 < s.outPtr.toNat ∧ s.outPtr.toNat + storedBytes .sigEmit s ≤ 9
      ∧ 9 < s.bufSize .obuf ∧ (s.bufOf .obuf).read 0 = none ∧ (s.bufOf .obuf).read 9 = none ∧ (s.bufOf .ibuf).read 0 = none :=
  ⟨rfl, rfl, by decide⟩

/-- The last byte of each buffer, at reset. -/
theorem witness_UnwrittenReadFaults_host :
    let s := loaded 0 []
    s.phase = .idle ∧ 31 < s.bufSize .obuf ∧ (s.bufOf .obuf).read 31 = none ∧ 63 < s.bufSize .ibuf
      ∧ (s.bufOf .ibuf).read 63 = none := by decide

theorem witness_CmdWriteIssuesOrIsDropped :
    (loaded 0 []).phase = .idle ∧ (running 0x00000001 (loaded 0 [])).phase = .run
      ∧ (∃ t, hostWrite 0x00 32 0x00000010 (loaded 0 []) = .next t ∧ engineMoves t []) ∧ decode 0x00000010 = .ok .typeCheck
      ∧ (∃ t, hostWrite 0x00 32 0x80000002 (loaded 0 []) = .next t ∧ engineMoves t []) ∧ decode 0x80000002 = .error .rsvNonzero :=
  ⟨rfl, rfl, ⟨_, rfl, rfl, .inr ⟨rfl, rfl⟩⟩, rfl, ⟨_, rfl, rfl, .inr ⟨rfl, rfl⟩⟩, rfl⟩

/-- CrcValueIsCrcOfBytesFed, TstatBits and RegisterMap: an idle state. -/
theorem witness_idle : (loaded 0 []).phase = .idle := rfl

theorem witness_StatusFields :
    (loaded 0 []).phase = .idle ∧ (0x00000008 : Word).getLsbD 3 = true ∧ (0xFFFFFFF7 : Word).getLsbD 3 = false
      ∧ (running 0x00000001 (loaded 0 [])).phase = .run ∧ RegName.crcValue ≠ .status := by decide

theorem witness_RegisterWrites_1 : 0x3C < 0x40 ∧ 8 ≠ 32 ∧ 0x3F < 0x40 ∧ 0x3F % 4 ≠ 0 := by decide

theorem witness_RegisterWrites_2 : (loaded 0 []).phase = .idle ∧ RegName.access .crcValue = .ro := by decide

theorem witness_RegisterWrites_3 :
    (loaded 0 []).phase = .idle ∧ RegName.access .crcState = .rw ∧ RegName.inLen ≠ .crcState ∧ RegName.access .inLen = .rw := by decide

theorem witness_ReservedOffsets : 0x34 ≤ 0x3C ∧ 0x3C < 0x40 ∧ 0x3C % 4 = 0 ∧ 0x40 ≤ 0x40 := by decide

theorem witness_HostReadsHaveNoSideEffect :
    (∃ v t, hostRead 0x04 32 (running 0x00000001 (loaded 0 [])) = .next (v, t))
      ∧ hostRead 0x30 32 (loaded 0 []) = .next (0, loaded 0 [])
      ∧ hostReadByte .ibuf 4 (loaded 0 hello) = .next (0x6F, loaded 0 hello) := ⟨⟨_, _, rfl⟩, rfl, rfl⟩

/-- V9.3: during CRC_BYTE, IN_PTR reads exactly. -/
theorem witness_BusyReadsThatAreExact :
    let s := running 0x00003102 (loaded 0 hello)
    s.phase = .run ∧ decode s.pend = .ok (.crcByte 0x31) ∧ writtenBy (.crcByte 0x31) .inPtr = false ∧ 4 < s.cfg.ibufSize
      ∧ s.ibuf.read 4 = some 0x6F := ⟨rfl, rfl, rfl, by decide, rfl⟩

/-- An illegal word in progress, and SIG_EMIT in progress with a written OBUF byte on each side of its interval. -/
theorem witness_BusyReadsThatAreExact_2 :
    let e := running 0x00000110 (loaded 0 [])
    let s : State := { running 0x00000032 (loaded 0 []) with outPtr := 1, obuf := [(0, 0xAA), (9, 0xBB)] }
    e.phase = .run ∧ decode e.pend = .error .immNonzero ∧ RegName.chkCrc ≠ .errcode ∧ RegName.chkCrc ≠ .status
      ∧ s.phase = .run ∧ decode s.pend = .ok .sigEmit ∧ writtenBy .sigEmit .inPtr = false ∧ 9 < s.cfg.obufSize
      ∧ s.obuf.read 0 = some 0xAA ∧ s.obuf.read 9 = some 0xBB ∧ 0 < s.outPtr.toNat
      ∧ s.outPtr.toNat + storedBytes .sigEmit s ≤ 9 :=
  ⟨rfl, rfl, by decide, by decide, rfl, rfl, rfl, by decide⟩

/-- The first and the last byte of SIG_EMIT's interval, an illegal word, and a command that may write IN_PTR. -/
theorem witness_BusyReadOfWrittenRegisterIsFree_2 :
    let s : State := { running 0x00000032 (loaded 0 []) with outPtr := 24 }
    s.phase = .run ∧ decode s.pend = .ok .sigEmit ∧ 31 < s.cfg.obufSize ∧ s.outPtr.toNat ≤ 24
      ∧ 31 < s.outPtr.toNat + storedBytes .sigEmit s ∧ decode 0x00000110 = .error .immNonzero
      ∧ decode 0x00000020 = .ok .sigCheck ∧ writtenBy .sigCheck .inPtr = true :=
  ⟨rfl, rfl, by decide, by decide, by decide, rfl, rfl, rfl⟩

/-- V9.3: during any command ERRCODE is a draw, and during CHUNK_DECODE so is TSTAT. -/
theorem witness_BusyReadOfWrittenRegisterIsFree :
    let s := running 0x00000021 (loaded 0 [])
    s.phase = .run ∧ decode s.pend = .ok .chunkDecode ∧ RegName.tstat ≠ .status ∧ writtenBy .chunkDecode .tstat = true
      ∧ writtenBy .chunkDecode .errcode = true := ⟨rfl, rfl, by decide, rfl, rfl⟩

theorem witness_HostBufferWrites :
    (running 0x00000001 (loaded 0 [])).phase = .run ∧ (loaded 0 []).phase = .idle ∧ 63 < (loaded 0 []).bufSize .ibuf
      ∧ 31 < (loaded 0 []).bufSize .obuf ∧ (62 : Nat) ≠ 63 ∧ (loaded 0 []).bufSize .ibuf ≤ 64
      ∧ (loaded 0 []).bufSize .obuf ≤ 32 := by decide

theorem witness_BigEndianFields : Memory.Holds (loaded 60 [0x3A, 0x7E, 0x9B, 0x55]).ibuf 60 [0x3A, 0x7E, 0x9B, 0x55] := by
  unfold Memory.Holds
  decide

/-- Reset while a command is in progress. -/
theorem witness_ResetFromAnyState :
    { running 0x00000021 frameState with turns := [.reset, .engine] : State }.turns = .reset :: [.engine] := rfl

theorem witness_InvariantAtReset : Config.wf { cfg with ibufSize := 2 ^ 32, obufSize := 2 ^ 32 } = true := by decide

theorem witness_StepKeepsInvariant :
    (running 0x00000021 frameState).wf = true ∧ ∃ t, step (running 0x00000021 frameState) = .next t ∧ decide (t.errcode = 0) = true :=
  ⟨by decide, exists_of_goesOn (by decide +kernel)⟩

theorem witness_OnlyCmdWriteStartsCommand :
    let s := hosting [CMD .typeCheck] (loaded 0 [])
    s.phase = .idle ∧ ∃ t, step s = .next t ∧ decide (t.phase = .run) = true := ⟨rfl, exists_of_goesOn (by decide)⟩

theorem witness_OverrunRisesOnlyByWriteWhileBusy :
    let s : State := { running 0x00000010 (hosting [WR .chkType (.lit 0)] (loaded 0 [])) with turns := [.host] }
    s.overrun = false ∧ ∃ t, step s = .next t ∧ t.overrun = true :=
  ⟨rfl, exists_of_goesOn (p := fun t => t.overrun) (by decide)⟩

/-- A step that changes IN_LEN, and one that changes an IBUF byte. -/
theorem witness_OnlyTheHostChangesTheInput :
    let s := hosting [WR .inLen (.lit 45)] (loaded 0 [])
    let u := hosting (LOADB 63 [0x82]) (loaded 0 [])
    (∀ rest, s.turns ≠ .reset :: rest) ∧ (∃ t, step s = .next t ∧ decide (t.inLen ≠ s.inLen) = true)
      ∧ ∃ t, step u = .next t ∧ decide (t.ibuf.read 63 ≠ u.ibuf.read 63) = true :=
  ⟨fun _ => (List.cons_ne_nil _ _).symm, exists_of_goesOn (by decide), exists_of_goesOn (by decide)⟩

theorem witness_DoMacroRunsTheCommand :
    let s := hosting (DO .typeCheck) (loaded 0 [])
    s.phase = .idle ∧ s.turns = [] ∧ s.host.status = .running ∧ s.host.prog[s.host.pc]? = some (CMD .typeCheck)
      ∧ s.host.prog[s.host.pc + 1]? = some .wait
      ∧ ∃ t, exec .typeCheck { s with phase := .run, overrun := false, pend := encode .typeCheck,
                                      host := { s.host with pc := s.host.pc + 1 } } = .next t :=
  ⟨rfl, rfl, rfl, rfl, rfl, _, rfl⟩

/-- A host at its program's end, one that has accepted, and a planned turn of each agent. -/
theorem witness_EndedRunKeepsItsObservation :
    let s := hosting [] (loaded 0 [])
    let u : State := { s with host := { s.host with status := .accepted }, turns := [.engine, .host] }
    runEnded s = true ∧ (∀ rest, s.turns ≠ .reset :: rest) ∧ runEnded u = true ∧ ∀ rest, u.turns ≠ .reset :: rest :=
  ⟨rfl, fun _ => (List.cons_ne_nil _ _).symm, rfl, fun _ h => by simp at h⟩

/-- A stream of the signature and one IEND frame, OBUF_SIZE = N, accepted by PARSE under a plan with an idle engine turn. -/
theorem witness_StreamRoundTrip :
    let s : State := { hosting parseProgram (loaded 0 (signature ++ iend)) with
      inLen := 20, cfg := { cfg with obufSize := 20 }, turns := [.engine, .host, .engine, .host] }
    s.phase = .idle ∧ Agent.reset ∉ s.turns ∧ s.host = { HostAgent.init with prog := parseProgram }
      ∧ s.inLen.toNat ≤ s.cfg.obufSize
      ∧ ∃ t, runSteps 30 s = .next t ∧ decide (t.host.status = .accepted) = true :=
  ⟨rfl, by decide, rfl, by decide, exists_of_goesOn (by decide +kernel)⟩

end Sys2Proof.Tests
end

section
/-! The invariant of the machine (00_scope.md R12): each state update keeps it, so each agent's move does, so every step does. -/

namespace Sys2Proof.Machine

/-! ### The invariant, clause by clause -/

/-- The clauses of `State.wf` under names (`State.wf_iff`), so that an update is checked on the clauses it touches. -/
structure State.Invariant (s : State) : Prop where
  params : s.cfg.wf = true
  ibufWf : s.ibuf.wf = true
  ibufWithin : s.ibuf.within s.cfg.ibufSize = true
  obufWf : s.obuf.wf = true
  obufWithin : s.obuf.within s.cfg.obufSize = true
  code : legalCode s.errcode = true
  vars : s.host.varsWf = true

theorem State.wf_iff {s : State} : s.wf = true ↔ s.Invariant := by
  simp only [State.wf, Bool.and_eq_true, and_assoc]
  exact ⟨fun ⟨hp, hi, hin, ho, hon, hc, hv⟩ => ⟨hp, hi, hin, ho, hon, hc, hv⟩,
    fun ⟨hp, hi, hin, ho, hon, hc, hv⟩ => ⟨hp, hi, hin, ho, hon, hc, hv⟩⟩

/-! ### Updates of fields the invariant does not speak of -/

section Untouched
variable (s : State)

@[simp] theorem State.wf_setTurns (ts : List Agent) : (s.setTurns ts).wf = s.wf := rfl
@[simp] theorem State.wf_drew : s.drew.wf = s.wf := rfl
@[simp] theorem State.wf_setOverrun (b : Bool) : (s.setOverrun b).wf = s.wf := rfl
@[simp] theorem State.wf_issue (w : Word) : (s.issue w).wf = s.wf := rfl
@[simp] theorem State.wf_setCrcState (v : Word) : (s.setCrcState v).wf = s.wf := rfl
@[simp] theorem State.wf_setChkCrc (v : Word) : (s.setChkCrc v).wf = s.wf := rfl
@[simp] theorem State.wf_setInPtr (v : Word) : (s.setInPtr v).wf = s.wf := rfl
@[simp] theorem State.wf_loadChunk (len type dofs crc next : Word) : (s.loadChunk len type dofs crc next).wf = s.wf := rfl
@[simp] theorem State.wf_writeReg (r : RegName) (v : Word) : (s.writeReg r v).wf = s.wf := by cases r <;> rfl

/-- Whatever a register write by the host does, the invariant, the parameters and the host agent stay as they were. -/
theorem State.hostWriteReg_keeps (r : RegName) (v : Word) :
    (s.hostWriteReg r v).wf = s.wf ∧ (s.hostWriteReg r v).cfg = s.cfg ∧ (s.hostWriteReg r v).host = s.host := by
  rcases hostWriteReg_cases s r v with h | h | ⟨-, -, h⟩ | ⟨-, -, h⟩ | ⟨-, h⟩ <;> simp [h]

@[simp] theorem State.wf_hostWriteReg (r : RegName) (v : Word) : (s.hostWriteReg r v).wf = s.wf :=
  (s.hostWriteReg_keeps r v).1
@[simp] theorem State.hostWriteReg_cfg (r : RegName) (v : Word) : (s.hostWriteReg r v).cfg = s.cfg :=
  (s.hostWriteReg_keeps r v).2.1
@[simp] theorem State.hostWriteReg_host (r : RegName) (v : Word) : (s.hostWriteReg r v).host = s.host :=
  (s.hostWriteReg_keeps r v).2.2

end Untouched

/-! ### Updates the invariant depends on -/

section Updates
variable {s : State}

theorem State.wf_endWith (hs : s.wf = true) {c : BitVec 4} (hc : legalCode c = true) : (s.endWith c).wf = true :=
  wf_iff.2 { wf_iff.1 hs with code := hc }

theorem State.wf_complete (hs : s.wf = true) : s.complete.wf = true := wf_endWith hs (by decide)

/-- NoSuchChunk is the one error whose code the block never writes (R110). -/
theorem legalCode_code {e : Err} (h : e.code ≠ 5) : legalCode e.code = true := by
  cases e with
  | noSuchChunk => exact absurd rfl h
  | invalidChunkType | chunkTooShort | chunkLengthInvalid | badChunkCrc | invalidHeader | fileTooShort | illegalCommand
  | bufferRange => rfl

theorem State.wf_raise (hs : s.wf = true) {e : Err} (h : e.code ≠ 5) : (s.raise e).wf = true :=
  wf_endWith hs (legalCode_code h)

theorem State.wf_emit (hs : s.wf = true) {bs : List Byte} (h : s.outPtr.toNat + bs.length ≤ s.cfg.obufSize) :
    (s.emit bs).wf = true :=
  have hi := wf_iff.1 hs
  wf_iff.2 { hi with
    obufWf := Memory.wf_writeBytes hi.obufWf _ bs
    obufWithin := Memory.within_writeBytes hi.obufWithin _ bs h }

theorem State.wf_setByte (hs : s.wf = true) {buf : Buffer} {a : Nat} (ha : a < s.bufSize buf) (b : Byte) :
    (s.setByte buf a b).wf = true := by
  have hi := wf_iff.1 hs
  cases buf with
  | ibuf =>
    exact wf_iff.2 { hi with
      ibufWf := Memory.wf_write hi.ibufWf a b
      ibufWithin := Memory.within_write hi.ibufWithin ha b }
  | obuf =>
    exact wf_iff.2 { hi with
      obufWf := Memory.wf_write hi.obufWf a b
      obufWithin := Memory.within_write hi.obufWithin ha b }

theorem State.wf_setHost (hs : s.wf = true) {h : HostAgent} (hv : h.varsWf = true) : (s.setHost h).wf = true :=
  wf_iff.2 { wf_iff.1 hs with vars := hv }

theorem State.wf_resetWith {c : Config} (hc : c.wf = true) : (State.resetWith c).wf = true :=
  wf_iff.2 ⟨hc, rfl, rfl, rfl, rfl, rfl, rfl⟩

theorem State.wf_resetInput (hs : s.wf = true) : s.resetInput.wf = true :=
  have hi := wf_iff.1 hs
  wf_iff.2 { wf_iff.1 (wf_resetWith hi.params) with vars := hi.vars }

end Updates

/-! ### The host's variables -/

section Host
variable {s t : State}

/-- An entry of value 0 is never listed, so a variable set to 0 is erased (log entry 7). -/
theorem HostAgent.varsWf_put {h : HostAgent} (hv : h.varsWf = true) (x v : Nat) : (h.put x v).varsWf = true := by
  simp only [HostAgent.varsWf, HostAgent.put, Bool.and_eq_true, List.all_eq_true, decide_eq_true_eq] at hv ⊢
  obtain ⟨hr, hne⟩ := hv
  split
  · exact ⟨risingFrom_eraseKey x hr, fun e he => hne e (mem_eraseKey he)⟩
  · rename_i hv0
    refine ⟨risingFrom_insertKey x v (Nat.zero_le x) hr, fun e he => ?_⟩
    rcases mem_insertKey he with rfl | he
    · exact hv0
    · exact hne e he

@[simp] theorem HostAgent.varsWf_advance (h : HostAgent) : h.advance.varsWf = h.varsWf := rfl

@[simp] theorem State.hostNext_host (s : State) : s.hostNext.host = s.host.advance := rfl

@[simp] theorem State.hostTake_host (s : State) (x v : Nat) : (s.hostTake x v).host = (s.host.put x v).advance := rfl

theorem hostWrite_host {off width : Nat} {v : Word} (h : hostWrite off width v s = .next t) : t.host = s.host := by
  rcases hostWrite_next h with rfl | ⟨r, rfl, -⟩ <;> simp

theorem hostRead_host {off width : Nat} {v : Word} (h : hostRead off width s = .next (v, t)) : t.host = s.host := by
  rcases hostRead_next h with rfl | rfl <;> simp

theorem hostWriteByte_host {buf : Buffer} {a : Nat} {b : Byte} (h : hostWriteByte buf a b s = .next t) : t.host = s.host := by
  obtain ⟨-, -, rfl⟩ := hostWriteByte_next h
  simp

theorem hostReadByte_host {buf : Buffer} {a : Nat} {b : Byte} (h : hostReadByte buf a s = .next (b, t)) : t.host = s.host := by
  rcases hostReadByte_next h with rfl | rfl <;> simp

theorem hostJump_varsWf {l : Nat} (hv : s.host.varsWf = true) (h : hostJump l s = .next t) : t.host.varsWf = true := by
  obtain ⟨k, rfl⟩ := hostJump_next h
  exact hv

/-- Every statement keeps the host's variables canonical: it leaves them or sets them by `put`. -/
theorem execStmt_varsWf {st : HStmt} (hv : s.host.varsWf = true) (h : execStmt st s = .next t) : t.host.varsWf = true := by
  cases st with
  | wr off width v =>
    simp only [execStmt] at h
    split at h <;> cases h
    simpa [hostWrite_host ‹_›] using hv
  | rd off width x =>
    simp only [execStmt] at h
    split at h <;> cases h
    simpa [hostRead_host ‹_›] using HostAgent.varsWf_put hv x _
  | wrb buf a v =>
    simp only [execStmt] at h
    split at h <;> cases h
    simpa [hostWriteByte_host ‹_›] using hv
  | rdb buf a x =>
    simp only [execStmt] at h
    split at h <;> cases h
    simpa [hostReadByte_host ‹_›] using HostAgent.varsWf_put hv x _
  | wait =>
    simp only [execStmt] at h
    split at h <;> cases h
    split <;> simpa [hostRead_host ‹_›] using hv
  | ifGoto c l =>
    simp only [execStmt] at h
    split at h
    · exact hostJump_varsWf hv h
    · cases h; exact hv
  | goto l => exact hostJump_varsWf hv h
  | set x e => cases h; exact HostAgent.varsWf_put hv x _
  | nextDesc i l a o c done =>
    simp only [execStmt] at h
    split at h
    · cases h
      exact HostAgent.varsWf_put (HostAgent.varsWf_put (HostAgent.varsWf_put (HostAgent.varsWf_put hv l _) a _) o _) c _
    · exact hostJump_varsWf hv h
  | label | fail | accept | append | clearList => cases h; exact hv

end Host

/-! ### The agents' moves -/

section Agents
variable {s t : State}

/-- A command keeps the invariant: the codes it raises are legal, and what it stores in OBUF it has checked to fit. -/
theorem Ends.wf {i : Instr} (h : Ends s i t) (hs : s.wf = true) : t.wf = true := by
  cases h with
  | raised he => exact State.wf_raise hs (errsOf_code he).2
  | crcInit | crcByte | crcBuf | typeCheck | sigCheck | chunkDecode | chunkNew => exact State.wf_complete (by simpa using hs)
  | chunkEncode hf ho hlet hd =>
    refine State.wf_complete (State.wf_emit hs ?_)
    rw [frameBytes_length, Memory.readRange_length hd]
    omega
  | sigEmit ho => exact State.wf_complete (State.wf_emit hs ho)

/-- A host move keeps the invariant when it leaves the host's variables canonical. -/
theorem HostMove.wf {st : HStmt} (h : HostMove s st t) (hs : s.wf = true) (hv : t.host.varsWf = true) : t.wf = true := by
  cases h with
  | own h => exact State.wf_setHost hs hv
  | read h => exact State.wf_setHost (by simpa using hs) hv
  | wrote r v hr h => exact State.wf_setHost (by simpa using hs) hv
  | stored b hi ha h => exact State.wf_setHost (State.wf_setByte hs ha b) hv

theorem HostMove.cfg {st : HStmt} (h : HostMove s st t) : t.cfg = s.cfg := by cases h <;> simp

theorem execStmt_wf {st : HStmt} (hs : s.wf = true) (h : execStmt st s = .next t) : t.wf = true :=
  (execStmt_moves h).wf hs (execStmt_varsWf (State.wf_iff.1 hs).vars h)

theorem Moves.wf (h : Moves s t) (hs : s.wf = true) : t.wf = true := by
  cases h with
  | command he hd h => exact h.wf (by simpa using hs)
  | illegal he hd => exact State.wf_raise (by simpa using hs) (by decide)
  | statement he h => exact execStmt_wf (by simpa using hs) h
  | reset he => exact State.wf_resetInput (by simpa using hs)
  | nothing rest => simpa using hs

/-- No agent changes a parameter (R12). -/
theorem Moves.cfg (h : Moves s t) : t.cfg = s.cfg := by
  cases h with
  | command he hd h => simpa using h.cfg
  | illegal he hd => simp
  | statement he h => simpa using (execStmt_moves h).cfg
  | reset he => simp
  | nothing rest => simp

end Agents

/-- Settles O47: the buffers and the host's variables are empty at reset and the code is 0. -/
theorem invariantAtReset : Obligations.InvariantAtReset :=
  ⟨fun _ hc => State.wf_resetWith hc, State.wf_resetWith (by decide)⟩

/-- Settles O48: a step is one agent's move (`step_moves`), and each agent's move keeps the invariant and the parameters. -/
theorem stepKeepsInvariant : Obligations.StepKeepsInvariant :=
  fun _ _ hs h => ⟨(step_moves h).wf hs, (step_moves h).cfg⟩

end Sys2Proof.Machine
end

section
/-! Register accesses by the host (10_state.md R19 to R35): what an access to each kind of register does, idle and busy, and the bits of
the two status words. -/

namespace Sys2Proof.Machine

/-! ### Register values and writes -/

section Registers
variable {s : State} {r : RegName}

theorem State.writeReg_of_ro (s : State) (hr : r.access = .ro) (v : Word) : s.writeReg r v = s := by
  cases r with
  | errcode | tstat | crcValue => rfl
  | cmd | status | inLen | inPtr | outPtr | chkLen | chkType | chkDofs | chkCrc | crcState => cases hr

/-- The RW registers are stored apart from each other: a write sets its own register and no other one. -/
theorem State.readReg_writeReg (s : State) {r' : RegName} (hr' : r'.access = .rw) (v : Word) :
    (s.writeReg r v).readReg r' = if r' = r then v else s.readReg r' := by
  cases r' with
  | inLen | inPtr | outPtr | chkLen | chkType | chkDofs | chkCrc | crcState => cases r <;> rfl
  | cmd | status | errcode | tstat | crcValue => cases hr'

theorem hostWrite_idle_ro (h : s.phase = .idle) (hr : r.access = .ro) (v : Word) : hostWrite r.offset 32 v s = .next s := by
  have hc : r ≠ .cmd := by rintro rfl; cases hr
  have hs : r ≠ .status := by rintro rfl; cases hr
  rw [hostWrite_idle h r v hc hs, s.writeReg_of_ro hr]

theorem hostWrite_idle_rw (h : s.phase = .idle) (hr : r.access = .rw) (v : Word) :
    hostWrite r.offset 32 v s = .next (s.writeReg r v) :=
  hostWrite_idle h r v (by rintro rfl; cases hr) (by rintro rfl; cases hr)

/-- While busy a write to any register but STATUS is dropped and sets OVERRUN (R24). -/
theorem hostWriteReg_busy (h : s.phase = .run) (hr : r ≠ .status) (v : Word) : s.hostWriteReg r v = s.setOverrun true := by
  cases r with
  | status => exact absurd rfl hr
  | cmd | errcode | tstat | inLen | inPtr | outPtr | chkLen | chkType | chkDofs | chkCrc | crcState | crcValue =>
    exact if_pos (busy_of_run h)

theorem hostWriteReg_status (s : State) (v : Word) :
    s.hostWriteReg .status v = if v.getLsbD 3 then s.setOverrun false else s := rfl

theorem hostWriteReg_cmd_idle (h : s.phase = .idle) (v : Word) : s.hostWriteReg .cmd v = s.issue v := by
  simp [State.hostWriteReg, busy_of_idle h]

/-- No command writes CMD, so it reads 0 at any time (R23). -/
theorem hostRead_cmd (s : State) : hostRead RegName.cmd.offset 32 s = .next (0, s) := by
  have hw : pendWrites s.pend .cmd = false := by unfold pendWrites; split <;> rfl
  rw [hostRead_reg]
  split
  · simp [State.readBusy, hw, State.readReg]
  · rfl

end Registers

/-! ### Accesses that reach no register -/

/-- The last register is CRC_VALUE at 0x30 (R19). -/
theorem RegName.offset_le (r : RegName) : r.offset ≤ 0x30 := by cases r <;> decide

theorem regAt_reserved {off : Nat} (h : 0x34 ≤ off) : regAt off = none := by
  cases hr : regAt off with
  | none => rfl
  | some r =>
    have := r.offset_le
    have := regAt_some hr
    omega

/-- The port answers an access inside the window that is not an aligned 32-bit word with the fault of R20. -/
theorem hostAccess_bad {off width : Nat} (ho : off < 0x40) (hb : width ≠ 32 ∨ off % 4 ≠ 0) (v : Word) (s : State) :
    hostRead off width s = .fault .hostBadRegAccess ∧ hostWrite off width v s = .fault .hostBadRegAccess := by
  have hg : goodAccess off width = false := by
    simp only [goodAccess, Bool.and_eq_false_iff, decide_eq_false_iff_not]
    exact hb
  simp [hostRead, hostWrite, hg, windowSize, Nat.not_le.2 ho]

theorem hostAccess_reserved {off : Nat} (hl : 0x34 ≤ off) (hu : off < 0x40) (ha : off % 4 = 0) (v : Word) (s : State) :
    hostRead off 32 s = .next (0, s) ∧ hostWrite off 32 v s = .next s := by
  simp [hostRead, hostWrite, goodAccess, ha, regAt_reserved hl, windowSize, Nat.not_le.2 hu]

theorem hostAccess_outside {off : Nat} (h : 0x40 ≤ off) (width : Nat) (v : Word) (s : State) :
    hostRead off width s = .refused .outsideWindow ∧ hostWrite off width v s = .refused .outsideWindow := by
  simp [hostRead, hostWrite, windowSize, h]

/-! ### Flag words -/

/-- The number `flagWord` makes of its flags has them as its binary digits. -/
theorem testBit_flags (bits : List Bool) (k : Nat) :
    (bits.foldr (fun (b : Bool) (n : Nat) => (if b then 1 else 0) + 2 * n) 0).testBit k = bits.getD k false := by
  induction bits generalizing k with
  | nil => simp
  | cons b bits ih =>
    cases k with
    | zero => cases b <;> simp [Nat.testBit_zero]
    | succ k =>
      rw [List.foldr_cons, Nat.testBit_succ, List.getD_cons_succ, ← ih]
      congr 1
      split <;> omega

theorem flagWord_getLsbD {bits : List Bool} (h : bits.length ≤ 32) (k : Nat) : (flagWord bits).getLsbD k = bits.getD k false := by
  rw [flagWord, BitVec.getLsbD_ofNat, testBit_flags]
  by_cases hk : k < 32
  · simp [hk]
  · rw [List.getD_eq_default _ _ (by omega), Bool.and_false]

theorem statusWord_reserved (busy err eos overrun : Bool) {k : Nat} (hk : 4 ≤ k) :
    (statusWord busy err eos overrun).getLsbD k = false := by
  rw [statusWord, flagWord_getLsbD (by simp), List.getD_eq_default _ _ (by simpa using hk)]

theorem tstatOf_getLsbD (t : Word) (k : Nat) :
    (tstatOf t).getLsbD k = [letters t, isCritical t, isPublic t, isReservedBitValid t, isSafeToCopy t].getD k false :=
  flagWord_getLsbD (by simp) k

theorem tstatOf_zero : tstatOf 0 = 0x0000000E := by decide

theorem letters_iff {t : Word} :
    letters t = true ↔ ∀ b ∈ be32bytes t, (0x41 ≤ b.toNat ∧ b.toNat ≤ 0x5A) ∨ (0x61 ≤ b.toNat ∧ b.toNat ≤ 0x7A) := by
  simp [letters, isLetter, be32bytes, and_assoc]

/-! ### The obligations on registers -/

/-- Settles O18: TSTAT is the flag word of the letter check and the four property bits of CHK_TYPE. -/
theorem tstatBits : Obligations.TstatBits := by
  refine ⟨fun s v h => ⟨hostRead_idle h .tstat, hostWrite_idle_ro h (r := .tstat) rfl v⟩, fun s => ?_, fun _ => tstatOf_zero⟩
  have bit := tstatOf_getLsbD s.chkType
  refine ⟨?_, bit 1, bit 2, bit 3, bit 4, fun k hk => ?_⟩
  · rw [← letters_iff, ← show (s.readReg .tstat).getLsbD 0 = letters s.chkType from bit 0]
  · exact (bit k).trans (List.getD_eq_default _ _ hk)

/-- Settles O37: STATUS is a flag word, and each write to a register is one case of `hostWriteReg`. -/
theorem statusFields : Obligations.StatusFields := by
  refine ⟨fun s h => ?_, fun s v hv => ?_, fun s v hv => ?_, fun s r v h hr => ?_, fun c => hostRead_idle rfl .status⟩
  · obtain ⟨hbusy, herr, heos, hover⟩ := statusWord_bits s.busy s.errFlag s.eosFlag s.overrun
    refine ⟨_, hostRead_idle h .status, hbusy.trans (busy_of_idle h), ?_, ?_, hover, fun k hk => statusWord_reserved _ _ _ _ hk⟩
    · rw [State.readReg, herr, State.errFlag, decide_eq_true_eq]
    · rw [State.readReg, heos, State.eosFlag, decide_eq_true_eq]
  · exact (hostWrite_reg .status v s).trans (by rw [hostWriteReg_status, if_pos hv]; rfl)
  · exact (hostWrite_reg .status v s).trans (by rw [hostWriteReg_status, hv]; rfl)
  · rw [hostWrite_reg, hostWriteReg_busy h hr]; rfl

/-- Settles O38: each access kind of R19 has its rule, and the RW registers are independent fields. -/
theorem registerWrites : Obligations.RegisterWrites := by
  refine ⟨fun s off width v ho hb => hostAccess_bad ho hb v s, fun s r v h hr => hostWrite_idle_ro h hr v, fun s v => ?_,
    fun s r v h hr => ?_⟩
  · rw [hostWrite_reg, hostWriteReg_status]
    split
    · exact ⟨false, rfl⟩
    · exact ⟨s.overrun, rfl⟩
  · have hidle : (s.writeReg r v).phase = .idle := by simp [h]
    refine ⟨s.writeReg r v, hostWrite_idle_rw h hr v, ?_, fun r' hne hr' => ?_, hidle, ?_⟩
    · rw [hostRead_idle hidle, s.readReg_writeReg hr, if_pos rfl]
    · rw [s.readReg_writeReg hr', if_neg hne]
    · simp

/-- Settles O36: an idle CMD write is `State.issue`, and the engine's turn performs the word it latched. -/
theorem cmdWriteIssuesOrIsDropped : Obligations.CmdWriteIssuesOrIsDropped := by
  have issues : ∀ (s : State) (w : Word), s.phase = .idle → hostWrite 0x00 32 w s = .next (s.issue w) := fun s w h =>
    (hostWrite_reg .cmd w s).trans (by rw [hostWriteReg_cmd_idle h])
  refine ⟨issues, fun s w h => ?_, fun s t w rest h hw he => ?_, hostRead_cmd⟩
  · exact (hostWrite_reg .cmd w s).trans (by rw [hostWriteReg_busy h (by decide)]; rfl)
  · rw [issues s w h] at hw
    cases hw
    rw [step_of_engineMoves he]
    refine ⟨fun i hd => ?_, fun e hd => ?_⟩
    · simp [performPend, decode?_of_ok hd]
    · simp only [performPend, State.setTurns_pend, State.issue_pend, decode?_of_error hd]; rfl

/-- Settles O39: at each literal offset, the rule of the register's access kind. -/
theorem registerMap : Obligations.RegisterMap := by
  intro s v h
  have roReg : ∀ r : RegName, r.access = .ro → hostRead r.offset 32 s = .next (s.readReg r, s) ∧ hostWrite r.offset 32 v s = .next s :=
    fun r hr => ⟨hostRead_idle h r, hostWrite_idle_ro h hr v⟩
  have rwReg : ∀ r : RegName, r.access = .rw →
      hostRead r.offset 32 s = .next (s.readReg r, s) ∧ hostWrite r.offset 32 v s = .next (s.writeReg r v) :=
    fun r hr => ⟨hostRead_idle h r, hostWrite_idle_rw h hr v⟩
  have code : (s.readReg .errcode).toNat = s.errcode.toNat := by
    simp only [State.readReg, BitVec.toNat_setWidth]; omega
  exact ⟨hostRead_cmd s, hostRead_idle h .status, ⟨_, (roReg .errcode rfl).1, code, (roReg .errcode rfl).2⟩, roReg .tstat rfl,
    rwReg .inLen rfl, rwReg .inPtr rfl, rwReg .outPtr rfl, rwReg .chkLen rfl, rwReg .chkType rfl, rwReg .chkDofs rfl,
    rwReg .chkCrc rfl, rwReg .crcState rfl, roReg .crcValue rfl⟩

/-- Settles O40: no register stands at a reserved offset, and an access outside the window is refused before any other check. -/
theorem reservedOffsets : Obligations.ReservedOffsets :=
  ⟨fun s _ v hl hu ha => hostAccess_reserved hl hu ha v s, fun s _ width v h => hostAccess_outside h width v s⟩

end Sys2Proof.Machine
end

section
/-! What every command leaves alone (10_state.md R19, 20_memory.md R43), and that an unwritten byte of IBUF is all that can keep one from
ending (10_state.md R39). -/

namespace Sys2Proof.Machine

variable {s t : State} {i : Instr}

/-! ### The CRC register over a sequence of CRC_BYTE -/

theorem runCommands_crcBytes (s : State) (c : Word) (bs : List Byte) :
    runCommands (bs.map .crcByte) (s.setCrcState c).complete = .next (s.setCrcState (crcFold c bs)).complete := by
  induction bs generalizing c with
  | nil => rfl
  | cons b bs ih => exact ih (crcStep8 c b)

/-! ### The frame of a command -/

/-- A command leaves every register outside its 'written by' column of R19: in each case, the column first and then the rest. -/
theorem Ends.readReg (h : Ends s i t) {r : RegName} (hr : writtenBy i r = false) : t.readReg r = s.readReg r := by
  cases h with
  | raised | typeCheck =>
    cases r with
    | status | errcode => cases hr
    | cmd | tstat | inLen | inPtr | outPtr | chkLen | chkType | chkDofs | chkCrc | crcState | crcValue => rfl
  | crcInit | crcByte | crcBuf =>
    cases r with
    | status | errcode | crcState | crcValue => cases hr
    | cmd | tstat | inLen | inPtr | outPtr | chkLen | chkType | chkDofs | chkCrc => rfl
  | sigCheck =>
    cases r with
    | status | errcode | inPtr => cases hr
    | cmd | tstat | inLen | outPtr | chkLen | chkType | chkDofs | chkCrc | crcState | crcValue => rfl
  | chunkDecode =>
    cases r with
    | status | errcode | tstat | inPtr | chkLen | chkType | chkDofs | chkCrc => cases hr
    | cmd | inLen | outPtr | crcState | crcValue => rfl
  | chunkNew =>
    cases r with
    | status | errcode | chkCrc => cases hr
    | cmd | tstat | inLen | inPtr | outPtr | chkLen | chkType | chkDofs | crcState | crcValue => rfl
  | chunkEncode | sigEmit =>
    cases r with
    | status | errcode | outPtr => cases hr
    | cmd | tstat | inLen | inPtr | chkLen | chkType | chkDofs | chkCrc | crcState | crcValue => rfl

/-- A command leaves every OBUF byte outside the interval it stores. -/
theorem Ends.obuf_read (h : Ends s i t) {a : Nat} (ha : a < s.outPtr.toNat ∨ s.outPtr.toNat + storedBytes i s ≤ a) :
    t.obuf.read a = s.obuf.read a := by
  cases h with
  | raised | crcInit | crcByte | crcBuf | typeCheck | sigCheck | chunkDecode | chunkNew => rfl
  | chunkEncode hf ho hlet hd =>
    refine Memory.read_writeBytes_outside _ _ _ _ ?_
    rwa [frameBytes_length, Memory.readRange_length hd]
  | sigEmit => exact Memory.read_writeBytes_outside _ _ _ _ ha

/-! ### Unwritten bytes -/

theorem Memory.exists_unwritten {m : Memory} {a n N : Nat} (h : m.readRange a n = none) (hN : a + n ≤ N) :
    ∃ b, b < N ∧ m.read b = none := by
  obtain ⟨k, hk, hn⟩ := Memory.readRange_eq_none.1 h
  exact ⟨a + k, by omega, hn⟩

theorem Memory.exists_unwritten32 {m : Memory} {a N : Nat} (h : m.read32 a = none) (hN : a + 4 ≤ N) :
    ∃ b, b < N ∧ m.read b = none := by
  obtain ⟨k, hk, hn⟩ := Memory.read32_eq_none.1 h
  exact ⟨a + k, by omega, hn⟩

theorem decodeBody_fault {p : Nat} {len : Word} (hp : p + 12 + len.toNat ≤ s.cfg.ibufSize)
    (h : decodeBody s p len = .fault .unwrittenRead) : ∃ a, a < s.cfg.ibufSize ∧ s.ibuf.read a = none := by
  simp only [decodeBody] at h
  split at h
  · exact Memory.exists_unwritten32 ‹_› (by omega)
  · split at h
    · cases h
    · split at h
      · exact Memory.exists_unwritten ‹_› (by omega)
      · split at h
        · exact Memory.exists_unwritten32 ‹_› (by omega)
        · split at h <;> cases h

theorem execChunkDecode_fault (h : execChunkDecode s = .fault .unwrittenRead) : ∃ a, a < s.cfg.ibufSize ∧ s.ibuf.read a = none := by
  simp only [execChunkDecode] at h
  split at h
  · cases h
  · split at h
    · cases h
    · split at h
      · exact Memory.exists_unwritten32 ‹_› (by omega)
      · split at h
        · cases h
        · exact decodeBody_fault (by omega) h

/-- A command faults at an unwritten byte of IBUF only: its range checks keep every read inside the buffer. -/
theorem exec_fault (h : exec i s = .fault .unwrittenRead) : ∃ a, a < s.cfg.ibufSize ∧ s.ibuf.read a = none := by
  cases i with
  | crcInit | crcByte => cases h
  | typeCheck => simp only [exec, execTypeCheck] at h; split at h <;> cases h
  | sigEmit => simp only [exec, execSigEmit] at h; split at h <;> cases h
  | chunkDecode => exact execChunkDecode_fault h
  | crcBuf =>
    simp only [exec, execCrcBuf] at h
    split at h
    · cases h
    · split at h
      · exact Memory.exists_unwritten ‹_› (by omega)
      · cases h
  | sigCheck =>
    simp only [exec, execSigCheck] at h
    split at h
    · cases h
    · split at h
      · cases h
      · split at h
        · exact Memory.exists_unwritten ‹_› (by omega)
        · split at h <;> cases h
  | chunkNew =>
    simp only [exec, execChunkNew] at h
    split at h
    · cases h
    · split at h
      · cases h
      · split at h
        · exact Memory.exists_unwritten ‹_› (by omega)
        · cases h
  | chunkEncode =>
    simp only [exec, execChunkEncode] at h
    split at h
    · cases h
    · split at h
      · cases h
      · split at h
        · cases h
        · split at h
          · exact Memory.exists_unwritten ‹_› (by omega)
          · cases h

/-! ### Reads that reach an unwritten byte -/

theorem payload_unwritten {k : Nat} (hk : k < s.chkLen.toNat) (hn : s.ibuf.read (s.chkDofs.toNat + k) = none) : s.payload = none :=
  Memory.readRange_eq_none.2 ⟨k, hk, hn⟩

section Decode
variable (hn : s.inLen.toNat ≤ s.cfg.ibufSize)
include hn

theorem execChunkDecode_length_unwritten (hp : s.inPtr.toNat + 12 ≤ s.inLen.toNat) (hl : s.ibuf.read32 s.inPtr.toNat = none) :
    execChunkDecode s = .fault .unwrittenRead := by
  rw [execChunkDecode, if_neg (by omega), if_neg (by omega)]
  simp only [hl]

/-- A LENGTH that fits leaves the rest of the frame to `decodeBody`. -/
theorem execChunkDecode_of_length {len : Word} (hp : s.inPtr.toNat + 12 + len.toNat ≤ s.inLen.toNat)
    (hl : s.ibuf.read32 s.inPtr.toNat = some len) : execChunkDecode s = decodeBody s s.inPtr.toNat len := by
  rw [execChunkDecode, if_neg (by omega), if_neg (by omega)]
  simp only [hl]
  rw [if_neg (by omega)]

end Decode

theorem decodeBody_type_unwritten {p : Nat} {len : Word} (ht : s.ibuf.read32 (p + 4) = none) :
    decodeBody s p len = .fault .unwrittenRead := by
  simp only [decodeBody, ht]

/-- DATA and CRC are read one after the other, and an unwritten byte of either is a fault. -/
theorem decodeBody_rest_unwritten {p k : Nat} {len type : Word} (ht : s.ibuf.read32 (p + 4) = some type) (hlet : letters type = true)
    (hk : k < len.toNat + 4) (hn : s.ibuf.read (p + 8 + k) = none) : decodeBody s p len = .fault .unwrittenRead := by
  simp only [decodeBody, ht, hlet, Bool.true_eq_false, if_false]
  cases hd : s.ibuf.readRange (p + 8) len.toNat with
  | none => rfl
  | some d =>
    have hlen : len.toNat ≤ k := by
      by_contra hlt
      rw [Memory.readRange_eq_none.2 ⟨k, by omega, hn⟩] at hd
      cases hd
    have hc : s.ibuf.read32 (p + 8 + len.toNat) = none := by
      refine Memory.read32_eq_none.2 ⟨k - len.toNat, by omega, ?_⟩
      rwa [Nat.add_assoc, Nat.add_sub_cancel' hlen]
    simp only [hc]

/-- Outside the output interval of the command in progress a host byte read is exact, so at an unwritten byte it is the fault of R39. -/
theorem hostReadByte_unwritten {buf : Buffer} {a : Nat} (ha : a < s.bufSize buf) (hn : (s.bufOf buf).read a = none)
    (hout : buf = .obuf → s.phase = .run → inOutputInterval s a = false) : hostReadByte buf a s = .fault .unwrittenRead := by
  have hfree : (decide (buf = .obuf) && s.busy && inOutputInterval s a) = false := by
    by_contra h
    simp only [Bool.not_eq_false, Bool.and_eq_true, decide_eq_true_eq, busy_iff_run] at h
    obtain ⟨⟨hb, hp⟩, hin⟩ := h
    rw [hout hb hp] at hin
    cases hin
  simp [hostReadByte, ha, hfree, hn]

/-! ### The obligations on commands -/

/-- Settles O16: the commands fold the bytes into CRC_STATE (`runCommands_crcBytes`), of which CRC_VALUE is the NOT. -/
theorem crcValueIsCrcOfBytesFed : Obligations.CrcValueIsCrcOfBytesFed :=
  ⟨fun _ v h => ⟨hostRead_idle h .crcValue, hostWrite_idle_ro h (r := .crcValue) rfl v⟩, fun _ => rfl,
    fun s bs => ⟨_, runCommands_crcBytes s crcInitValue bs, rfl, rfl⟩, fun _ => show ~~~ (0xFFFFFFFF : Word) = 0 by decide⟩

/-- Settles O32: each way a command can end (`Ends`) writes its own column of R19 and its own interval of OBUF. -/
theorem commandFrame : Obligations.CommandFrame := by
  intro i s t h
  have he := exec_ends h
  exact ⟨fun r hr => he.readReg hr, he.ibuf, he.inLen, he.pend, he.overrun, he.host, he.cfg, he.draws, he.turns,
    fun a ha => he.obuf_read ha⟩

/-- Settles O34: a command that does not end has met an unwritten byte (`exec_fault`), and there is none. -/
theorem commandsEndOnWrittenInput : Obligations.CommandsEndOnWrittenInput := by
  intro i s hw
  refine (exec_stops i s).resolve_right fun hf => ?_
  obtain ⟨a, ha, hn⟩ := exec_fault hf
  exact hw a ha (by simpa using hn)

/-- Settles O35: one clause for each interval a command reads, and one for the host's own reads. -/
theorem unwrittenReadFaults : Obligations.UnwrittenReadFaults := by
  refine ⟨fun s k hf hk hn => ?payload, fun s k hn h8 hk hu => ?signature, fun s k hn hp hk hu => ?length,
    fun s len k hn hp hl hk hu => ?type, fun s len t k hn hp hlt hlet hk hu => ?rest, fun s buf a ha hn hout => ?host⟩
  case payload =>
    have hd := payload_unwritten hk hn
    have hf := Nat.not_lt.2 hf
    exact ⟨by simp [exec, execCrcBuf, hf, hd], fun hlet => ⟨by simp [exec, execChunkNew, hf, hlet, hd],
      fun ho => by simp [exec, execChunkEncode, hf, Nat.not_lt.2 ho, hlet, hd]⟩⟩
  case signature =>
    have hd : s.ibuf.readRange 0 8 = none := Memory.readRange_eq_none.2 ⟨k, hk, by simpa using hu⟩
    simp [exec, execSigCheck, Nat.not_lt.2 hn, Nat.not_lt.2 h8, hd]
  case length => exact execChunkDecode_length_unwritten hn hp (Memory.read32_eq_none.2 ⟨k, hk, hu⟩)
  case type =>
    exact (execChunkDecode_of_length hn hp (Memory.holds_be32bytes.1 hl)).trans
      (decodeBody_type_unwritten (Memory.read32_eq_none.2 ⟨k, hk, hu⟩))
  case rest =>
    obtain ⟨hl, ht⟩ := Memory.holds_append.1 hlt
    exact (execChunkDecode_of_length hn hp (Memory.holds_be32bytes.1 hl)).trans
      (decodeBody_rest_unwritten (Memory.holds_be32bytes.1 ht) hlet hk hu)
  case host => exact hostReadByte_unwritten ha hn fun hb hp => not_inOutputInterval (hout hb hp)

end Sys2Proof.Machine
end

section
/-! Which agent's move can raise BUSY or OVERRUN or change the input (10_state.md R23, R24, R27, R37, R38): the host's own write, and the
rule says which one. -/

namespace Sys2Proof.Machine

variable {s t : State} {st : HStmt}

/-! ### The effect of a host statement on the block, with the value and the offset its expressions give -/

/-- `HostMove` with the width, the value and the offset of a write as the statement's own (20_memory.md R42). -/
inductive HostEffect (s : State) : HStmt → State → Prop where
  | own {st : HStmt} (h : HostAgent) : HostEffect s st (s.setHost h)
  | read {st : HStmt} (h : HostAgent) : HostEffect s st (s.drew.setHost h)
  | wrote (r : RegName) (e : HExpr) (h : HostAgent) :
      HostEffect s (.wr r.offset 32 e) ((s.hostWriteReg r (BitVec.ofNat 32 (s.host.eval e))).setHost h)
  | stored (buf : Buffer) (ea ev : HExpr) (h : HostAgent) :
      HostEffect s (.wrb buf ea ev) ((s.setByte buf (s.host.eval ea) (BitVec.ofNat 8 (s.host.eval ev))).setHost h)

/-- Only a 32-bit register write is answered (R20). -/
theorem hostWrite_width {off width : Nat} {v : Word} (h : hostWrite off width v s = .next t) : width = 32 := by
  simp only [hostWrite] at h
  split at h
  · cases h
  · split at h
    · rename_i hg
      simp only [goodAccess, Bool.and_eq_true, decide_eq_true_eq] at hg
      exact hg.1
    · cases h

theorem execStmt_effect (h : execStmt st s = .next t) : HostEffect s st t := by
  cases st with
  | wr off width e =>
    simp only [execStmt] at h
    split at h <;> cases h
    rename_i u hu
    obtain rfl := hostWrite_width hu
    rcases hostWrite_next hu with rfl | ⟨r, rfl, rfl⟩
    · exact .own _
    · exact .wrote r e _
  | wrb buf ea ev =>
    simp only [execStmt] at h
    split at h <;> cases h
    rename_i u hu
    obtain ⟨-, -, rfl⟩ := hostWriteByte_next hu
    exact .stored buf ea ev _
  | rd | rdb | wait | label | ifGoto | goto | fail | accept | set | append | nextDesc | clearList =>
    cases execStmt_moves h with
    | own a => exact .own a
    | read a => exact .read a

/-! ### What a write to a register leaves alone -/

theorem hostWriteReg_ibuf (s : State) (r : RegName) (v : Word) : (s.hostWriteReg r v).ibuf = s.ibuf := by
  rcases hostWriteReg_cases s r v with h | h | ⟨-, -, h⟩ | ⟨-, -, h⟩ | ⟨-, h⟩ <;> simp [h]

theorem hostWriteReg_inLen (s : State) {r : RegName} (hr : r ≠ .inLen) (v : Word) : (s.hostWriteReg r v).inLen = s.inLen := by
  have hw : (s.writeReg r v).inLen = s.inLen := (s.readReg_writeReg (r' := .inLen) rfl v).trans (if_neg hr.symm)
  rcases hostWriteReg_cases s r v with h | h | ⟨-, -, h⟩ | ⟨-, -, h⟩ | ⟨-, h⟩ <;> simp [h, hw]

/-! ### The four changes only the host can make -/

/-- BUSY rises by a CMD write alone. -/
theorem HostEffect.starts (h : HostEffect s st t) (hi : s.phase = .idle) (hrun : t.phase = .run) :
    ∃ e, st = .wr 0x00 32 e ∧ t.pend = BitVec.ofNat 32 (s.host.eval e) ∧ t.overrun = false := by
  cases h with
  | own | read => exact absurd (hi.symm.trans hrun) (by decide)
  | stored buf ea ev => simp [hi] at hrun
  | wrote r e h =>
    rcases hostWriteReg_cases s r (BitVec.ofNat 32 (s.host.eval e)) with hw | hw | ⟨hp, -⟩ | ⟨-, rfl, hw⟩ | ⟨-, hw⟩
    · simp [hw, hi] at hrun
    · simp [hw, hi] at hrun
    · rw [hi] at hp; cases hp
    · exact ⟨e, rfl, by simp [hw], by simp [hw]⟩
    · simp [hw, hi] at hrun

/-- OVERRUN rises by a dropped register write alone. -/
theorem HostEffect.overruns (h : HostEffect s st t) (h0 : s.overrun = false) (h1 : t.overrun = true) :
    s.phase = .run ∧ ∃ off e, st = .wr off 32 e ∧ t = { s with overrun := true, host := t.host } := by
  cases h with
  | own | read => exact absurd (h0.symm.trans h1) (by decide)
  | stored buf ea ev => simp [h0] at h1
  | wrote r e h =>
    rcases hostWriteReg_cases s r (BitVec.ofNat 32 (s.host.eval e)) with hw | hw | ⟨hp, -, hw⟩ | ⟨-, -, hw⟩ | ⟨-, hw⟩
    · simp [hw, h0] at h1
    · simp [hw] at h1
    · exact ⟨hp, r.offset, e, rfl, by rw [hw]; rfl⟩
    · simp [hw] at h1
    · simp [hw, h0] at h1

theorem HostEffect.inLen (h : HostEffect s st t) (hne : t.inLen ≠ s.inLen) : ∃ e, st = .wr 0x10 32 e := by
  cases h with
  | own | read => exact absurd rfl hne
  | stored => exact absurd (by simp) hne
  | wrote r e h =>
    by_cases hr : r = .inLen
    · subst hr; exact ⟨e, rfl⟩
    · exact absurd (hostWriteReg_inLen s hr _) hne

theorem HostEffect.ibuf (h : HostEffect s st t) {a : Nat} (hne : t.ibuf.read a ≠ s.ibuf.read a) :
    ∃ ea ev, st = .wrb .ibuf ea ev ∧ s.host.eval ea = a := by
  cases h with
  | own | read => exact absurd rfl hne
  | wrote r e h => exact absurd (congrArg (Memory.read · a) (hostWriteReg_ibuf s r _)) hne
  | stored buf ea ev =>
    cases buf with
    | obuf => exact absurd rfl hne
    | ibuf =>
      refine ⟨ea, ev, rfl, ?_⟩
      by_contra ha
      exact hne (Memory.read_write_ne (Ne.symm ha) _ _)

/-! ### Every other move keeps the input -/

/-- A step that is neither reset nor a host statement changes nothing of the input. -/
theorem Moves.input (h : Moves s t) (hr : ∀ rest, s.turns ≠ .reset :: rest) :
    (∃ st rest, hostMoves s st rest ∧ HostEffect (s.setTurns rest) st t) ∨ (t.inLen = s.inLen ∧ t.ibuf = s.ibuf) := by
  cases h with
  | command he hd h => exact .inr ⟨h.inLen, h.ibuf⟩
  | illegal | nothing => exact .inr ⟨rfl, rfl⟩
  | statement he h => exact .inl ⟨_, _, he, execStmt_effect h⟩
  | reset he => exact absurd he (hr _)

/-! ### The obligations on steps -/

/-- Settles O49: the engine's move and reset end in IDLE, and of the host's statements only a CMD write leaves it. -/
theorem onlyCmdWriteStartsCommand : Obligations.OnlyCmdWriteStartsCommand := by
  intro s t h hi hrun
  cases step_moves h with
  | command he hd h => exact absurd (h.phase.symm.trans hrun) (by decide)
  | illegal | reset => cases hrun
  | nothing => exact absurd (hi.symm.trans hrun) (by decide)
  | statement he h =>
    obtain ⟨e, rfl, hpend, hover⟩ := (execStmt_effect h).starts hi hrun
    exact ⟨e, _, he, hpend, hover⟩

/-- Settles O50: the engine's move leaves OVERRUN, reset clears it, and of the host's statements only a dropped write sets it. -/
theorem overrunRisesOnlyByWriteWhileBusy : Obligations.OverrunRisesOnlyByWriteWhileBusy := by
  intro s t h h0 h1
  cases step_moves h with
  | command he hd h => exact absurd ((h.overrun.trans h0).symm.trans h1) (by decide)
  | illegal | nothing => exact absurd (h0.symm.trans h1) (by decide)
  | reset => cases h1
  | statement he h =>
    obtain ⟨hp, off, e, rfl, ht⟩ := (execStmt_effect h).overruns h0 h1
    exact ⟨hp, off, e, _, he, ht⟩

/-- Settles O51: what moves the input is a host statement (`Moves.input`), and its effect says which. -/
theorem onlyTheHostChangesTheInput : Obligations.OnlyTheHostChangesTheInput := by
  intro s t h hr
  rcases (step_moves h).input hr with ⟨st, rest, he, heff⟩ | ⟨hlen, hbuf⟩
  · refine ⟨fun hne => ?_, fun a hne => ?_⟩
    · obtain ⟨e, rfl⟩ := heff.inLen hne
      exact ⟨e, rest, he⟩
    · obtain ⟨ea, ev, rfl, ha⟩ := heff.ibuf hne
      exact ⟨ea, ev, rest, he, ha⟩
  · exact ⟨fun hne => absurd hlen hne, fun a hne => absurd (by rw [hbuf]) hne⟩

end Sys2Proof.Machine
end

section
/-! What a host read leaves (20_memory.md R46), and a 4-byte field as a number (R41). -/

namespace Sys2Proof.Machine

variable {s t : State}

/-! ### Host reads -/

/-- The two ways a read can leave the state differ from it in the draw counter alone (log entry 4). -/
theorem eq_update_draws_of_read (h : t = s ∨ t = s.drew) : t = { s with draws := t.draws } := by
  rcases h with rfl | rfl <;> rfl

/-- Idle, no register read draws a free value (R136 speaks of BUSY = 1). -/
theorem hostRead_idle_state (hi : s.phase = .idle) {off width : Nat} {v : Word} (h : hostRead off width s = .next (v, t)) :
    t = s := by
  simp only [hostRead, busy_of_idle hi, Bool.false_eq_true, if_false] at h
  split at h
  · cases h
  · split at h
    · split at h <;> cases h <;> rfl
    · cases h

/-- Idle, no buffer read draws a free value. -/
theorem hostReadByte_idle_state (hi : s.phase = .idle) {buf : Buffer} {a : Nat} {b : Byte}
    (h : hostReadByte buf a s = .next (b, t)) : t = s := by
  simp only [hostReadByte, busy_of_idle hi, Bool.and_false, Bool.false_and, Bool.false_eq_true, if_false] at h
  split at h
  · split at h <;> cases h
    rfl
  · cases h

/-- Settles O41: an answered read moves at most the draw counter (`hostRead_next`, `hostReadByte_next`), and idle not even that. -/
theorem hostReadsHaveNoSideEffect : Obligations.HostReadsHaveNoSideEffect :=
  ⟨fun _ _ _ _ _ h => ⟨eq_update_draws_of_read (hostRead_next h), fun hi => hostRead_idle_state hi h⟩,
    fun _ _ _ _ _ h => ⟨eq_update_draws_of_read (hostReadByte_next h), fun hi => hostReadByte_idle_state hi h⟩⟩

/-! ### Big-endian fields -/

/-- Bytes appended below a word shift it up by a byte. -/
theorem toNat_append_byte {n : Nat} (x : BitVec n) (b : Byte) : (x ++ b).toNat = x.toNat * 2 ^ 8 + b.toNat := by
  rw [BitVec.toNat_append, ← Nat.shiftLeft_add_eq_or_of_lt b.isLt, Nat.shiftLeft_eq]

/-- `be32` as a number. -/
theorem toNat_be32 (b0 b1 b2 b3 : Byte) :
    (be32 b0 b1 b2 b3).toNat = b0.toNat * 2 ^ 24 + b1.toNat * 2 ^ 16 + b2.toNat * 2 ^ 8 + b3.toNat := by
  rw [be32, toNat_append_byte, toNat_append_byte, toNat_append_byte]
  omega

/-- A field whose four bytes are known reads as their `be32`. -/
theorem Memory.read32_of_holds {m : Memory} {a : Nat} {b0 b1 b2 b3 : Byte} (h : m.Holds a [b0, b1, b2, b3]) :
    m.read32 a = some (be32 b0 b1 b2 b3) := by
  rw [← be32bytes_be32] at h
  exact Memory.holds_be32bytes.1 h

/-- Settles O45: the field's value is `be32` of its bytes, which as a number is the sum (`toNat_be32`); a write of `be32bytes v` leaves
those bytes, and `be32` of them is v again. -/
theorem bigEndianFields : Obligations.BigEndianFields := by
  refine ⟨fun m a b0 b1 b2 b3 h => ⟨_, Memory.read32_of_holds h, toNat_be32 b0 b1 b2 b3⟩, fun m a v => ?_⟩
  have hw : (m.writeBytes a (be32bytes v)).Holds a (be32bytes v) := Memory.writeBytes_holds m a _
  refine ⟨_, _, _, _, hw, ?_, Memory.holds_be32bytes.1 hw⟩
  rw [← toNat_be32, be32_be32bytes]

end Sys2Proof.Machine
end

section
/-! The encoding (30_encoding.md R53 to R55): what each check of the decoder decides, and that decode and encode agree. -/

namespace Sys2Proof

variable {w : Word} {i : Instr}

/-! ### The decoder, one equation per check of R55 -/

theorem decode_of_rsv (hr : rsvField w ≠ 0) : decode w = .error .rsvNonzero := if_pos hr

theorem decode_of_unassigned (hr : rsvField w = 0) (ho : ofOpcode (opField w) (immField w) = none) :
    decode w = .error .unassignedOpcode := by
  simp only [decode, hr, ho, ne_eq, not_true_eq_false, if_false]

theorem decode_of_imm (hr : rsvField w = 0) (ho : ofOpcode (opField w) (immField w) = some i) (hop : opField w ≠ 2)
    (hi : immField w ≠ 0) : decode w = .error .immNonzero := by
  simp only [decode, hr, ho, ne_eq, not_true_eq_false, if_false]
  exact if_pos ⟨hop, hi⟩

theorem decode_of_legal (hr : rsvField w = 0) (ho : ofOpcode (opField w) (immField w) = some i)
    (hi : opField w = 2 ∨ immField w = 0) : decode w = .ok i := by
  simp only [decode, hr, ho, ne_eq, not_true_eq_false, if_false]
  exact if_neg fun ⟨hop, him⟩ => hi.elim hop him

/-- A command has imm8 = 0 unless it is CRC_BYTE (R53). -/
theorem immField_eq_immOf (ho : ofOpcode (opField w) (immField w) = some i) (hi : opField w = 2 ∨ immField w = 0) :
    immField w = immOf i := by
  obtain ⟨hop, himm⟩ := ofOpcode_some ho
  by_cases h2 : opField w = 2
  · exact himm h2
  · rw [hi.resolve_left h2, immOf_eq_zero (hop ▸ h2)]

/-- A word decodes to a command exactly when its three fields are the command's. -/
theorem decode_eq_ok_iff_fields : decode w = .ok i ↔ rsvField w = 0 ∧ immField w = immOf i ∧ opField w = opcodeOf i := by
  constructor
  · intro h
    have hr : rsvField w = 0 := by
      by_contra hr
      cases (decode_of_rsv hr).symm.trans h
    cases ho : ofOpcode (opField w) (immField w) with
    | none => cases (decode_of_unassigned hr ho).symm.trans h
    | some j =>
      by_cases hi : opField w = 2 ∨ immField w = 0
      · cases (decode_of_legal hr ho hi).symm.trans h
        exact ⟨hr, immField_eq_immOf ho hi, (ofOpcode_some ho).1⟩
      · obtain ⟨hop, him⟩ := not_or.1 hi
        cases (decode_of_imm hr ho hop him).symm.trans h
  · rintro ⟨hr, him, hop⟩
    refine decode_of_legal hr (by rw [hop, him, ofOpcode_opcodeOf]) ?_
    by_cases h2 : opcodeOf i = 2
    · exact .inl (hop.trans h2)
    · exact .inr (him.trans (immOf_eq_zero h2))

/-! ### The encoder -/

/-- A word is the encoding of a command exactly when its three fields are the command's. -/
theorem eq_encode_iff_fields : w = encode i ↔ rsvField w = 0 ∧ immField w = immOf i ∧ opField w = opcodeOf i := by
  constructor
  · rintro rfl
    exact ⟨rsvField_encode i, immField_encode i, opField_encode i⟩
  · rintro ⟨hr, him, hop⟩
    rw [← fields_append w, hr, him, hop]
    rfl

theorem decode_eq_ok_iff : decode w = .ok i ↔ w = encode i := decode_eq_ok_iff_fields.trans eq_encode_iff_fields.symm

@[simp] theorem decode_encode (i : Instr) : decode (encode i) = .ok i := decode_eq_ok_iff.2 rfl

/-- A command word as a number: `op` is its low byte and imm8 the byte above. -/
theorem encode_toNat (i : Instr) : (encode i).toNat = 256 * (immOf i).toNat + (opcodeOf i).toNat := by
  have hop := opField_toNat (encode i)
  have him := immField_toNat (encode i)
  have hr : 0 = (encode i).toNat / 65536 := by rw [← rsvField_toNat, rsvField_encode]; rfl
  rw [opField_encode] at hop
  rw [immField_encode] at him
  omega

theorem decode_ofNat (i : Instr) : decode (BitVec.ofNat 32 (256 * (immOf i).toNat + (opcodeOf i).toNat)) = .ok i := by
  rw [← encode_toNat, BitVec.ofNat_toNat, BitVec.setWidth_eq, decode_encode]

/-! ### The fields as parts of the word's number -/

theorem rsvField_eq_zero_iff : rsvField w = 0 ↔ w.toNat / 65536 = 0 := by
  rw [← rsvField_toNat, ← BitVec.toNat_inj]; rfl

theorem immField_eq_zero_iff : immField w = 0 ↔ w.toNat / 256 % 256 = 0 := by
  rw [← immField_toNat, ← BitVec.toNat_inj]; rfl

theorem opField_eq_two_iff : opField w = 2 ↔ w.toNat % 256 = 2 := by
  rw [← opField_toNat, ← BitVec.toNat_inj]; rfl

theorem ofOpcode_eq_none_iff : ofOpcode (opField w) (immField w) = none ↔ w.toNat % 256 ∉ assignedOpcodes := by
  rw [ofOpcode_none, opField_toNat]

theorem exists_ofOpcode (h : w.toNat % 256 ∈ assignedOpcodes) : ∃ i, ofOpcode (opField w) (immField w) = some i :=
  Option.ne_none_iff_exists'.1 fun hn => ofOpcode_eq_none_iff.1 hn h

/-! ### The obligations on words -/

/-- Settles O2: both sides say that the word's three fields are the command's. -/
theorem decodeIffEncode : Obligations.DecodeIffEncode := fun _ _ => decode_eq_ok_iff

/-- Settles O1: each pattern is its command's word as a number, and a decoded word has an assigned opcode. -/
theorem opcodeMapWordsDecode : Obligations.OpcodeMapWordsDecode := by
  refine ⟨decode_ofNat .crcInit, fun b => decode_ofNat (.crcByte b), decode_ofNat .crcBuf, decode_ofNat .typeCheck,
    decode_ofNat .sigCheck, decode_ofNat .chunkDecode, decode_ofNat .chunkNew, decode_ofNat .chunkEncode, decode_ofNat .sigEmit,
    fun w i hw h => hw ?_⟩
  obtain ⟨-, -, hop⟩ := decode_eq_ok_iff_fields.1 h
  rw [← opField_toNat, hop]
  exact opcodeOf_assigned i

end Sys2Proof
end

section
/-! The engine's turn (30_encoding.md R56, R113): the step is the decoded command or the raise of IllegalCommand, and how it ends; and `DO`
(R63) as the three steps it takes. -/

namespace Sys2Proof.Machine

variable {s t : State} {i : Instr} {rest : List Agent}

/-! ### Performing the latched word -/

theorem performPend_of_ok (h : decode s.pend = .ok i) : performPend s = exec i s := by
  simp [performPend, decode?_of_ok h]

theorem performPend_of_error {e : DecodeError} (h : decode s.pend = .error e) :
    performPend s = .next (s.raise .illegalCommand) := by
  simp [performPend, decode?_of_error h]

theorem step_of_command (he : engineMoves s rest) (hd : decode s.pend = .ok i) : step s = exec i (s.setTurns rest) :=
  (step_of_engineMoves he).trans (performPend_of_ok hd)

theorem step_of_illegal {e : DecodeError} (he : engineMoves s rest) (hd : decode s.pend = .error e) :
    step s = .next ((s.setTurns rest).raise .illegalCommand) :=
  (step_of_engineMoves he).trans (performPend_of_error hd)

/-- A command that does not raise has ended in `complete`, so with code 0 (R104). -/
theorem Ends.completed_or_raised (h : Ends s i t) : t.errcode = 0 ∨ ∃ e ∈ errsOf i, t = s.raise e := by
  cases h with
  | raised he => exact .inr ⟨_, he, rfl⟩
  | crcInit | crcByte | crcBuf | typeCheck | sigCheck | chunkDecode | chunkNew | chunkEncode | sigEmit => exact .inl rfl

/-! ### The placed word -/

theorem withFetchWord_encode (s : State) (i : Instr) : s.withFetchWord 32 (encode i).toNat = latchWord s (encode i) := by
  rw [State.withFetchWord, Nat.mod_eq_of_lt (encode i).isLt, BitVec.ofNat_toNat, BitVec.setWidth_eq]

theorem latchWord_engineMoves (s : State) (w : Word) : engineMoves (latchWord s w) s.turns := ⟨rfl, .inl rfl⟩

/-! ### The steps of DO -/

theorem setTurns_nil (h : s.turns = []) : s.setTurns [] = s := by rw [← h]; rfl

theorem runSteps_of_step {k : Nat} (h : step s = .next t) : runSteps (k + 1) s = runSteps k t := by
  simp [runSteps, h]

/-- A mnemonic at the host's position issues the command (R23). -/
theorem execStmt_CMD (hi : s.phase = .idle) (i : Instr) : execStmt (CMD i) s = .next (s.issue (encode i)).hostNext := by
  have hv : BitVec.ofNat 32 (s.host.eval (.lit (encode i).toNat)) = encode i := by simp [HostAgent.eval]
  simp only [CMD, WR, execStmt, hv, hostWrite_reg, hostWriteReg_cmd_idle hi]

/-- A poll that finds BUSY = 0 ends the wait. -/
theorem execStmt_wait_idle (hi : s.phase = .idle) : execStmt .wait s = .next s.hostNext := by
  have hbusy : (s.readReg .status).getLsbD 0 = false := (statusWord_bits _ _ _ _).1.trans (busy_of_idle hi)
  simp only [execStmt, hostRead_idle hi, hbusy, Bool.false_eq_true, if_false]

/-! ### The obligations on the engine's step -/

/-- Settles O4: the engine's step performs the latched word, which is the command's. -/
theorem stepRunsDecodedCommand : Obligations.StepRunsDecodedCommand := fun _ _ _ he hd => step_of_command he hd

/-- Settles O5: `withFetchWord` latches the word with the engine's turn first, and the word decodes to its command. -/
theorem fetchWordRunsCommand : Obligations.FetchWordRunsCommand := by
  intro s i
  rw [withFetchWord_encode]
  exact step_of_command (latchWord_engineMoves s (encode i)) (decode_encode i)

/-- Settles O3: each clause is one equation of the decoder, read over the word's number; an illegal word is raised as such. -/
theorem decodeChecksInOrder : Obligations.DecodeChecksInOrder := by
  refine ⟨fun w hr => decode_of_rsv (mt rsvField_eq_zero_iff.1 hr),
    fun w hr ho => decode_of_unassigned (rsvField_eq_zero_iff.2 hr) (ofOpcode_eq_none_iff.2 ho),
    fun w hr ho h2 hi => ?_, fun w hr ho hi => ?_, fun s rest e he hd => step_of_illegal he hd⟩
  · obtain ⟨i, ho⟩ := exists_ofOpcode ho
    exact decode_of_imm (rsvField_eq_zero_iff.2 hr) ho (mt opField_eq_two_iff.1 h2) (mt immField_eq_zero_iff.1 hi)
  · obtain ⟨i, ho⟩ := exists_ofOpcode ho
    have hd := decode_of_legal (rsvField_eq_zero_iff.2 hr) ho (hi.imp opField_eq_two_iff.2 immField_eq_zero_iff.2)
    obtain ⟨-, him, hop⟩ := decode_eq_ok_iff_fields.1 hd
    exact ⟨i, hd, by rw [← hop, opField_toNat], by rw [← him, immField_toNat]⟩

/-- Settles O6: a legal word's command completes or raises (`Ends.completed_or_raised`), an illegal word raises. -/
theorem engineStepCompletesOrRaises : Obligations.EngineStepCompletesOrRaises := by
  intro s t rest he h
  cases hd : decode s.pend with
  | error e =>
    rw [step_of_illegal he hd] at h
    cases h
    exact ⟨rfl, rfl, .inr ⟨.illegalCommand, by decide, rfl⟩⟩
  | ok i =>
    rw [step_of_command he hd] at h
    have hends := exec_ends h
    refine ⟨hends.phase, hends.turns, hends.completed_or_raised.imp_right ?_⟩
    rintro ⟨e, herr, rfl⟩
    exact ⟨e, (errsOf_code herr).1, rfl⟩

/-- Settles O52: the CMD write, the engine's step and the poll, each by the rule of its step. -/
theorem doMacroRunsTheCommand : Obligations.DoMacroRunsTheCommand := by
  intro s t i hidle hturns hrun hcmd hwait hexec
  have hends := exec_ends hexec
  have hissue : step s = .next (s.issue (encode i)).hostNext := by
    rw [step_of_hostMoves ⟨hrun, hcmd, .inr ⟨hturns, hidle, rfl⟩⟩, setTurns_nil hturns, execStmt_CMD hidle]
  have hperform : step (s.issue (encode i)).hostNext = .next t := by
    have hplan : (s.issue (encode i)).hostNext.turns = [] := hturns
    rw [step_of_command ⟨rfl, .inr ⟨hplan, rfl⟩⟩ (decode_encode i), setTurns_nil hplan]
    exact hexec
  have hpoll : step t = .next t.hostNext := by
    have hhost : hostMoves t .wait [] := by
      refine ⟨?_, ?_, .inr ⟨hends.turns.trans hturns, hends.phase, rfl⟩⟩ <;> rw [hends.host]
      · exact hrun
      · exact hwait
    rw [step_of_hostMoves hhost, setTurns_nil (hends.turns.trans hturns), execStmt_wait_idle hends.phase]
  rw [runSteps_of_step hissue, runSteps_of_step hperform, runSteps_of_step hpoll, runSteps, State.hostNext, hends.host]
  rfl

end Sys2Proof.Machine
end

section
/-! What a command depends on (30_encoding.md R57): two states that agree on the parameters, IBUF and the operands take the same way
through the command's checks and end alike. -/

namespace Sys2Proof.Machine

variable {s₁ s₂ : State} {i : Instr}

/-- The two states agree on all a command may depend on (R57). -/
structure SameOperands (i : Instr) (s₁ s₂ : State) : Prop where
  cfg : s₂.cfg = s₁.cfg
  ibuf : s₂.ibuf = s₁.ibuf
  regs : ∀ r : RegName, operandOf i r = true → s₂.readReg r = s₁.readReg r

/-- Two results of a command that agree on all it decides and writes: the same stop, the same error raised, or two completions with
equal values in the command's registers (R19's 'written by' column; `complete` itself writes STATUS and ERRCODE) and in the stored
bytes (20_memory.md R43). -/
inductive SameEnd (i : Instr) (s₁ s₂ : State) : Result → Result → Prop where
  | stopped (f : Fault) : SameEnd i s₁ s₂ (.fault f) (.fault f)
  | raised {e : Err} (he : e ∈ errsOf i) : SameEnd i s₁ s₂ (.next (s₁.raise e)) (.next (s₂.raise e))
  | completed {u₁ u₂ : State}
      (hreg : ∀ r : RegName, r ≠ .status → r ≠ .errcode → writtenBy i r = true → u₂.readReg r = u₁.readReg r)
      (hobuf : ∀ a, s₁.outPtr.toNat ≤ a → a < s₁.outPtr.toNat + storedBytes i s₁ → u₂.obuf.read a = u₁.obuf.read a) :
      SameEnd i s₁ s₂ (.next u₁.complete) (.next u₂.complete)

/-- Completing writes ERRCODE and STATUS only. -/
theorem readReg_complete (s : State) {r : RegName} (hs : r ≠ .status) (he : r ≠ .errcode) :
    s.complete.readReg r = s.readReg r := by
  cases r with
  | status => exact absurd rfl hs
  | errcode => exact absurd rfl he
  | cmd | tstat | inLen | inPtr | outPtr | chkLen | chkType | chkDofs | chkCrc | crcState | crcValue => rfl

/-- What the obligation says of two results that end alike. -/
theorem SameEnd.next {o₁ o₂ : Result} (h : SameEnd i s₁ s₂ o₁ o₂) {t₁ : State} (h₁ : o₁ = .next t₁) :
    ∃ t₂, o₂ = .next t₂ ∧ t₂.errcode = t₁.errcode ∧
      (t₁.errcode = 0 → (∀ r : RegName, r ≠ .status → writtenBy i r = true → t₂.readReg r = t₁.readReg r) ∧
        ∀ a, s₁.outPtr.toNat ≤ a → a < s₁.outPtr.toNat + storedBytes i s₁ → t₂.obuf.read a = t₁.obuf.read a) := by
  cases h with
  | stopped f => cases h₁
  | raised he =>
    cases h₁
    exact ⟨_, rfl, rfl, fun h0 => absurd h0 (errsOf_code he).1⟩
  | completed hreg hobuf =>
    cases h₁
    refine ⟨_, rfl, rfl, fun _ => ⟨fun r hs hw => ?_, hobuf⟩⟩
    by_cases he : r = .errcode
    · subst he; rfl
    · rw [readReg_complete _ hs he, readReg_complete _ hs he]
      exact hreg r hs he hw

/-! ### Completions -/

/-- A command that stores nothing has only its registers to agree on. -/
theorem SameEnd.completed_registers {u₁ u₂ : State} (h0 : storedBytes i s₁ = 0)
    (hreg : ∀ r : RegName, r ≠ .status → r ≠ .errcode → writtenBy i r = true → u₂.readReg r = u₁.readReg r) :
    SameEnd i s₁ s₂ (.next u₁.complete) (.next u₂.complete) :=
  .completed hreg fun a ha hlt => by omega

/-- A register of the CRC commands' column is CRC_STATE or follows it (R34, R35). -/
theorem SameEnd.crcState (hi : writtenBy.writesCrc i = true) (v : Word) :
    SameEnd i s₁ s₂ (.next (s₁.setCrcState v).complete) (.next (s₂.setCrcState v).complete) := by
  cases i with
  | typeCheck | sigCheck | chunkDecode | chunkNew | chunkEncode | sigEmit => cases hi
  | crcInit | crcByte | crcBuf =>
    refine .completed_registers rfl fun r hs he hw => ?_
    cases r with
    | crcState | crcValue => rfl
    | status => exact absurd rfl hs
    | errcode => exact absurd rfl he
    | cmd | tstat | inLen | inPtr | outPtr | chkLen | chkType | chkDofs | chkCrc => cases hw

/-- A byte inside a written interval reads as written, whatever the buffer held. -/
theorem Memory.read_writeBytes_congr (m m' : Memory) {a c : Nat} {bs : List Byte} (hl : a ≤ c) (hu : c < a + bs.length) :
    (m.writeBytes a bs).read c = (m'.writeBytes a bs).read c := by
  obtain ⟨k, rfl⟩ := Nat.exists_eq_add_of_le hl
  rw [Memory.read_writeBytes_inside _ _ _ k (by omega), Memory.read_writeBytes_inside _ _ _ k (by omega)]

/-- Emitting the same bytes at the same OUT_PTR leaves the same OUT_PTR and the same bytes. -/
theorem SameEnd.emit {bs : List Byte} (hi : ∀ r : RegName, r ≠ .status → r ≠ .errcode → writtenBy i r = true → r = .outPtr)
    (hlen : bs.length = storedBytes i s₁) (hout : s₂.outPtr = s₁.outPtr) :
    SameEnd i s₁ s₂ (.next (s₁.emit bs).complete) (.next (s₂.emit bs).complete) := by
  refine .completed (fun r hs he hw => ?_) fun a hl hu => ?_
  · obtain rfl := hi r hs he hw
    simp [State.readReg, State.emit, hout]
  · simp only [State.emit, hout]
    exact Memory.read_writeBytes_congr _ _ hl (hlen ▸ hu)

/-! ### Each command -/

theorem payload_congr (hibuf : s₂.ibuf = s₁.ibuf) (hdofs : s₂.chkDofs = s₁.chkDofs) (hlen : s₂.chkLen = s₁.chkLen) :
    s₂.payload = s₁.payload := by
  simp only [State.payload, hibuf, hdofs, hlen]

theorem execCrcByte_sameEnd {b : Byte} (h : SameOperands (.crcByte b) s₁ s₂) :
    SameEnd (.crcByte b) s₁ s₂ (execCrcByte b s₁) (execCrcByte b s₂) := by
  have hcrc : s₂.crcState = s₁.crcState := h.regs .crcState rfl
  simp only [execCrcByte, hcrc]
  exact .crcState rfl _

theorem execCrcBuf_sameEnd (h : SameOperands .crcBuf s₁ s₂) : SameEnd .crcBuf s₁ s₂ (execCrcBuf s₁) (execCrcBuf s₂) := by
  have hcrc : s₂.crcState = s₁.crcState := h.regs .crcState rfl
  have hdofs : s₂.chkDofs = s₁.chkDofs := h.regs .chkDofs rfl
  have hlen : s₂.chkLen = s₁.chkLen := h.regs .chkLen rfl
  simp only [execCrcBuf, h.cfg, hcrc, hdofs, hlen, payload_congr h.ibuf hdofs hlen]
  split
  · exact .raised (by simp [errsOf])
  · cases s₁.payload with
    | none => exact .stopped _
    | some d => exact .crcState rfl _

theorem execTypeCheck_sameEnd (h : SameOperands .typeCheck s₁ s₂) :
    SameEnd .typeCheck s₁ s₂ (execTypeCheck s₁) (execTypeCheck s₂) := by
  have htype : s₂.chkType = s₁.chkType := h.regs .chkType rfl
  simp only [execTypeCheck, htype]
  split
  · exact .raised (by simp [errsOf])
  · refine .completed_registers rfl fun r hs he hw => ?_
    cases r with
    | status => exact absurd rfl hs
    | errcode => exact absurd rfl he
    | cmd | tstat | inLen | inPtr | outPtr | chkLen | chkType | chkDofs | chkCrc | crcState | crcValue => cases hw

theorem execSigCheck_sameEnd (h : SameOperands .sigCheck s₁ s₂) :
    SameEnd .sigCheck s₁ s₂ (execSigCheck s₁) (execSigCheck s₂) := by
  have hlen : s₂.inLen = s₁.inLen := h.regs .inLen rfl
  simp only [execSigCheck, h.cfg, h.ibuf, hlen]
  split
  · exact .raised (by simp [errsOf])
  split
  · exact .raised (by simp [errsOf])
  cases s₁.ibuf.readRange 0 8 with
  | none => exact .stopped _
  | some bs =>
    dsimp only
    split
    · exact .raised (by simp [errsOf])
    · refine .completed_registers rfl fun r hs he hw => ?_
      cases r with
      | inPtr => rfl
      | status => exact absurd rfl hs
      | errcode => exact absurd rfl he
      | cmd | tstat | inLen | outPtr | chkLen | chkType | chkDofs | chkCrc | crcState | crcValue => cases hw

theorem SameEnd.loadChunk (len type dofs crc next : Word) :
    SameEnd .chunkDecode s₁ s₂ (.next (s₁.loadChunk len type dofs crc next).complete)
      (.next (s₂.loadChunk len type dofs crc next).complete) := by
  refine .completed_registers rfl fun r hs he hw => ?_
  cases r with
  | tstat | inPtr | chkLen | chkType | chkDofs | chkCrc => rfl
  | status => exact absurd rfl hs
  | errcode => exact absurd rfl he
  | cmd | inLen | outPtr | crcState | crcValue => cases hw

theorem decodeBody_sameEnd (hibuf : s₂.ibuf = s₁.ibuf) (p : Nat) (len : Word) :
    SameEnd .chunkDecode s₁ s₂ (decodeBody s₁ p len) (decodeBody s₂ p len) := by
  simp only [decodeBody, hibuf]
  cases s₁.ibuf.read32 (p + 4) with
  | none => exact .stopped _
  | some t =>
    dsimp only
    split
    · exact .raised (by simp [errsOf])
    cases s₁.ibuf.readRange (p + 8) len.toNat with
    | none => exact .stopped _
    | some d =>
      cases s₁.ibuf.read32 (p + 8 + len.toNat) with
      | none => exact .stopped _
      | some c =>
        dsimp only
        split
        · exact .raised (by simp [errsOf])
        · exact .loadChunk _ _ _ _ _

theorem execChunkDecode_sameEnd (h : SameOperands .chunkDecode s₁ s₂) :
    SameEnd .chunkDecode s₁ s₂ (execChunkDecode s₁) (execChunkDecode s₂) := by
  have hlen : s₂.inLen = s₁.inLen := h.regs .inLen rfl
  have hptr : s₂.inPtr = s₁.inPtr := h.regs .inPtr rfl
  simp only [execChunkDecode, h.cfg, h.ibuf, hlen, hptr]
  split
  · exact .raised (by simp [errsOf])
  split
  · exact .raised (by simp [errsOf])
  cases s₁.ibuf.read32 s₁.inPtr.toNat with
  | none => exact .stopped _
  | some len =>
    dsimp only
    split
    · exact .raised (by simp [errsOf])
    · exact decodeBody_sameEnd h.ibuf _ _

theorem execChunkNew_sameEnd (h : SameOperands .chunkNew s₁ s₂) :
    SameEnd .chunkNew s₁ s₂ (execChunkNew s₁) (execChunkNew s₂) := by
  have htype : s₂.chkType = s₁.chkType := h.regs .chkType rfl
  have hdofs : s₂.chkDofs = s₁.chkDofs := h.regs .chkDofs rfl
  have hlen : s₂.chkLen = s₁.chkLen := h.regs .chkLen rfl
  simp only [execChunkNew, h.cfg, htype, hdofs, hlen, payload_congr h.ibuf hdofs hlen]
  split
  · exact .raised (by simp [errsOf])
  split
  · exact .raised (by simp [errsOf])
  cases s₁.payload with
  | none => exact .stopped _
  | some d =>
    refine .completed_registers rfl fun r hs he hw => ?_
    cases r with
    | chkCrc => rfl
    | status => exact absurd rfl hs
    | errcode => exact absurd rfl he
    | cmd | tstat | inLen | inPtr | outPtr | chkLen | chkType | chkDofs | crcState | crcValue => cases hw

/-- OUT_PTR is all that a storing command has in its column beside ERRCODE and STATUS. -/
theorem writtenBy_emitting {r : RegName} (hs : r ≠ .status) (he : r ≠ .errcode)
    (hw : writtenBy .chunkEncode r = true ∨ writtenBy .sigEmit r = true) : r = .outPtr := by
  cases r with
  | outPtr => rfl
  | status => exact absurd rfl hs
  | errcode => exact absurd rfl he
  | cmd | tstat | inLen | inPtr | chkLen | chkType | chkDofs | chkCrc | crcState | crcValue => rcases hw with hw | hw <;> cases hw

theorem execChunkEncode_sameEnd (h : SameOperands .chunkEncode s₁ s₂) :
    SameEnd .chunkEncode s₁ s₂ (execChunkEncode s₁) (execChunkEncode s₂) := by
  have htype : s₂.chkType = s₁.chkType := h.regs .chkType rfl
  have hdofs : s₂.chkDofs = s₁.chkDofs := h.regs .chkDofs rfl
  have hlen : s₂.chkLen = s₁.chkLen := h.regs .chkLen rfl
  have hcrc : s₂.chkCrc = s₁.chkCrc := h.regs .chkCrc rfl
  have hout : s₂.outPtr = s₁.outPtr := h.regs .outPtr rfl
  simp only [execChunkEncode, h.cfg, htype, hdofs, hlen, hcrc, hout, payload_congr h.ibuf hdofs hlen]
  split
  · exact .raised (by simp [errsOf])
  split
  · exact .raised (by simp [errsOf])
  split
  · exact .raised (by simp [errsOf])
  cases hd : s₁.payload with
  | none => exact .stopped _
  | some d =>
    refine .emit (fun r hs he hw => writtenBy_emitting hs he (.inl hw)) ?_ hout
    rw [frameBytes_length, Memory.readRange_length hd]
    rfl

theorem execSigEmit_sameEnd (h : SameOperands .sigEmit s₁ s₂) :
    SameEnd .sigEmit s₁ s₂ (execSigEmit s₁) (execSigEmit s₂) := by
  have hout : s₂.outPtr = s₁.outPtr := h.regs .outPtr rfl
  simp only [execSigEmit, h.cfg, hout]
  split
  · exact .raised (by simp [errsOf])
  · exact .emit (fun r hs he hw => writtenBy_emitting hs he (.inr hw)) rfl hout

/-- Every command ends alike from states that agree on its operands. -/
theorem exec_sameEnd (h : SameOperands i s₁ s₂) : SameEnd i s₁ s₂ (exec i s₁) (exec i s₂) := by
  cases i with
  | crcInit => exact .crcState rfl _
  | crcByte b => exact execCrcByte_sameEnd h
  | crcBuf => exact execCrcBuf_sameEnd h
  | typeCheck => exact execTypeCheck_sameEnd h
  | sigCheck => exact execSigCheck_sameEnd h
  | chunkDecode => exact execChunkDecode_sameEnd h
  | chunkNew => exact execChunkNew_sameEnd h
  | chunkEncode => exact execChunkEncode_sameEnd h
  | sigEmit => exact execSigEmit_sameEnd h

/-- Settles O33: the checks and the writes of every command are functions of the operands, IBUF and the parameters (`exec_sameEnd`). -/
theorem commandReadsOnlyItsOperands : Obligations.CommandReadsOnlyItsOperands :=
  fun _ _ _ _ hcfg hibuf hregs h => (exec_sameEnd ⟨hcfg.symm, hibuf.symm, fun r hr => (hregs r hr).symm⟩).next h

end Sys2Proof.Machine
end

section
/-! The type code command (40_chunk_type.md R70): TYPE_CHECK decides `letters` of CHK_TYPE, and either way only ends. -/

namespace Sys2Proof.Machine

theorem exec_typeCheck_of_letters {s : State} (h : letters s.chkType = true) : exec .typeCheck s = .next s.complete :=
  if_neg (by simp [h])

theorem exec_typeCheck_of_not_letters {s : State} (h : ¬ letters s.chkType = true) :
    exec .typeCheck s = .next (s.raise .invalidChunkType) :=
  if_pos (by simpa using h)

/-- Settles O17: `letters` is the statement's condition on the bytes (`letters_iff`), and each of its two values selects one end. -/
theorem typeCheckResult : Obligations.TypeCheckResult := by
  refine ⟨by decide, fun s hall => exec_typeCheck_of_letters (letters_iff.2 hall), fun s hbad => exec_typeCheck_of_not_letters ?_⟩
  obtain ⟨b, hb, hnot⟩ := hbad
  exact fun h => hnot (letters_iff.1 h b hb)

end Sys2Proof.Machine
end

section
/-! The CRC register as a linear map over GF(2) that loses nothing (41_crc.md R72 to R74). Everything here is read off one form of a step:
`crcStep8` XORs the byte into the register and shifts eight times. -/

namespace Sys2Proof.Machine

/-! ### One step -/

/-- The second form R72 gives, with `crcShift` for its shift step. -/
theorem crcStep8_eq_iterate (c : Word) (x : Byte) : crcStep8 c x = crcShift^[8] (c ^^^ x.setWidth 32) := by
  have hbyte : (x.setWidth 32).setWidth 8 = x := by simp
  have hrest : x.setWidth 32 >>> 8 = 0#32 := by bv_omega
  rw [crcShift_eight, hbyte, hrest, BitVec.xor_zero]

theorem crcShift_iterate_xor (n : Nat) (a b : Word) : crcShift^[n] (a ^^^ b) = crcShift^[n] a ^^^ crcShift^[n] b := by
  induction n generalizing a b with
  | zero => rfl
  | succ n ih => rw [Function.iterate_succ_apply, crcShift_xor, ih]; rfl

theorem crcStep8_xor (c₁ c₂ : Word) (x₁ x₂ : Byte) :
    crcStep8 (c₁ ^^^ c₂) (x₁ ^^^ x₂) = crcStep8 c₁ x₁ ^^^ crcStep8 c₂ x₂ := by
  have hinput : c₁ ^^^ c₂ ^^^ (x₁ ^^^ x₂).setWidth 32 = c₁ ^^^ x₁.setWidth 32 ^^^ (c₂ ^^^ x₂.setWidth 32) := by
    rw [BitVec.setWidth_xor]; ac_rfl
  rw [crcStep8_eq_iterate, hinput, crcShift_iterate_xor, ← crcStep8_eq_iterate, ← crcStep8_eq_iterate]

theorem crcStep8_register_injective (x : Byte) : Function.Injective (crcStep8 · x) := by
  intro c₁ c₂ h
  simp only [crcStep8_eq_iterate] at h
  exact (BitVec.xor_left_inj _).1 (crcShift_injective.iterate 8 h)

theorem crcStep8_byte_injective (c : Word) : Function.Injective (crcStep8 c) := by
  intro x₁ x₂ h
  simp only [crcStep8_eq_iterate] at h
  have hx := (BitVec.xor_right_inj _).1 (crcShift_injective.iterate 8 h)
  simpa using congrArg (BitVec.setWidth 8) hx

/-! ### Byte sequences -/

theorem crcFold_append (c : Word) (bs cs : List Byte) : crcFold c (bs ++ cs) = crcFold (crcFold c bs) cs := List.foldl_append

theorem crcFold_register_injective (bs : List Byte) : Function.Injective (crcFold · bs) := by
  induction bs with
  | nil => exact fun _ _ h => h
  | cons b bs ih => exact ih.comp (crcStep8_register_injective b)

theorem crcFold_crcInitValue (bs : List Byte) : crcFold crcInitValue bs = ~~~ crc32 bs := by rw [crc32, BitVec.not_not]

/-- Two sequences that differ in at most one byte have the same CRC only when that byte is the same. -/
theorem crc32_byte_inj {pre post : List Byte} {x y : Byte} : crc32 (pre ++ y :: post) = crc32 (pre ++ x :: post) ↔ y = x := by
  refine ⟨fun h => ?_, fun h => by rw [h]⟩
  have hfold := congrArg (~~~ ·) h
  simp only [← crcFold_crcInitValue, crcFold_append] at hfold
  exact crcStep8_byte_injective _ (crcFold_register_injective post hfold)

/-- Feeding a word's bytes, least significant first, XORs the word into the register and shifts 32 times. -/
theorem crcFold_le32bytes (c v : Word) : crcFold c (le32bytes v) = crcShift^[32] (c ^^^ v) := by
  have hshifts : crcShift^[32] (c ^^^ v) = crcShift^[8] (crcShift^[8] (crcShift^[8] (crcShift^[8] (c ^^^ v)))) := rfl
  rw [hshifts, crcShift_eight, crcShift_eight, crcShift_eight, crcShift_eight]
  have hbytes : le32bytes v = [v.setWidth 8, (v >>> 8).setWidth 8, (v >>> 8 >>> 8).setWidth 8, (v >>> 8 >>> 8 >>> 8).setWidth 8] := by
    simp only [← BitVec.shiftRight_add]; rfl
  have hrest : v >>> 8 >>> 8 >>> 8 >>> 8 = 0#32 := by bv_omega
  rw [hbytes, hrest, BitVec.xor_zero]
  rfl

/-- The register that a CRC's own four bytes leave, whatever the sequence was: 32 shifts of all ones. -/
theorem crcFold_residue (c : Word) : crcFold c (le32bytes (~~~ c)) = ~~~ 0x2144DF1C := by
  rw [crcFold_le32bytes, ← BitVec.not_xor_right, BitVec.xor_self]
  decide

theorem xor_twoPow_ne {k : Nat} (hk : k < 8) (x : Byte) : x ^^^ BitVec.twoPow 8 k ≠ x := by
  intro h
  have hbit := congrArg (BitVec.getLsbD · k) h
  simp [hk] at hbit

/-! ### The obligations on the CRC function -/

/-- Settles O10: the first form is `crcStep8` with its bits listed, the second is `crcStep8_eq_iterate`. -/
theorem crcStepTwoForms : Obligations.CrcStepTwoForms := fun c x => ⟨rfl, crcStep8_eq_iterate c x⟩

/-- Settles O11: `crcStep8_xor`, the linearity of a shift carried through eight of them. -/
theorem crcStepLinear : Obligations.CrcStepLinear := crcStep8_xor

/-- Settles O12: the CRC's bytes cancel the register that made them (`crcFold_residue`). -/
theorem crcResidue : Obligations.CrcResidue := by
  intro bs
  have hfold : crcFold crcInitValue (bs ++ le32bytes (crc32 bs)) = ~~~ 0x2144DF1C := by
    rw [crcFold_append]; exact crcFold_residue _
  rw [crc32, hfold, BitVec.not_not]

/-- Settles O13: a step loses nothing of the byte, and the steps after it nothing of the register (`crc32_byte_inj`). -/
theorem singleBitFlipChangesCrc : Obligations.SingleBitFlipChangesCrc :=
  fun _ _ x _ hk h => xor_twoPow_ne hk x (crc32_byte_inj.1 h)

end Sys2Proof.Machine
end

section
/-! The CRC commands (41_crc.md R75 to R77): CRC_INIT and CRC_BYTE always complete, CRC_BUF after its range check. -/

namespace Sys2Proof.Machine

variable {s t : State} {d : List Byte}

theorem encode_crcByte (b : Byte) : encode (.crcByte b) = BitVec.ofNat 32 (256 * b.toNat + 2) :=
  (decode_eq_ok_iff.1 (decode_ofNat (.crcByte b))).symm

theorem exec_crcBuf_of_range (h : s.cfg.ibufSize < s.chkDofs.toNat + s.chkLen.toNat) :
    exec .crcBuf s = .next (s.raise .bufferRange) := if_pos h

theorem exec_crcBuf_of_payload (hf : s.chkDofs.toNat + s.chkLen.toNat ≤ s.cfg.ibufSize) (hd : s.payload = some d) :
    exec .crcBuf s = .next (s.setCrcState (crcFold s.crcState d)).complete := by
  simp only [exec, execCrcBuf, Nat.not_lt.2 hf, if_false, hd]

theorem payload_eq_some : s.payload = some d ↔ d.length = s.chkLen.toNat ∧ s.ibuf.Holds s.chkDofs.toNat d :=
  Memory.readRange_iff_holds

/-- A CRC_BUF that completes has folded its payload. -/
theorem exec_crcBuf_completed (h : exec .crcBuf s = .next t) (h0 : t.errcode = 0) :
    ∃ d, s.payload = some d ∧ t.crcState = crcFold s.crcState d := by
  cases exec_ends h with
  | raised he => exact absurd h0 (errsOf_code he).1
  | crcBuf hf hd => exact ⟨_, hd, rfl⟩

/-- CRC_BYTE on each byte in order folds them, from any state: the first command brings the form `runCommands_crcBytes` starts from. -/
theorem runCommands_crcBytes_crcState (s : State) (bs : List Byte) :
    ∃ u, runCommands (bs.map .crcByte) s = .next u ∧ u.crcState = crcFold s.crcState bs := by
  cases bs with
  | nil => exact ⟨s, rfl, rfl⟩
  | cons b bs => exact ⟨_, runCommands_crcBytes s (crcStep8 s.crcState b) bs, rfl⟩

/-! ### The obligations on the CRC commands -/

/-- Settles O8: the command's meaning is this one write, and NOT of all ones is 0. -/
theorem crcInitResult : Obligations.CrcInitResult :=
  ⟨by decide, fun _ => ⟨_, rfl, rfl, show ~~~ (0xFFFFFFFF : Word) = 0 by decide⟩⟩

/-- Settles O9: the word is `encode_crcByte`, the meaning is this one write, and the corner values are computed. -/
theorem crcByteResult : Obligations.CrcByteResult :=
  ⟨encode_crcByte, fun _ _ => rfl, by decide⟩

/-- Settles O14: the range check's two ends. -/
theorem crcBufResult : Obligations.CrcBufResult :=
  ⟨by decide, fun _ hf => exec_crcBuf_of_range hf, fun _ _ hf hl hd => exec_crcBuf_of_payload hf (payload_eq_some.2 ⟨hl, hd⟩)⟩

/-- Settles O15: both sides fold the payload into CRC_STATE. -/
theorem crcBufEqualsCrcBytes : Obligations.CrcBufEqualsCrcBytes := by
  intro s t h h0
  obtain ⟨d, hd, ht⟩ := exec_crcBuf_completed h h0
  obtain ⟨hl, hholds⟩ := payload_eq_some.1 hd
  obtain ⟨u, hu, hcrc⟩ := runCommands_crcBytes_crcState s d
  exact ⟨d, hl, hholds, u, hu, hcrc.trans ht.symm⟩

end Sys2Proof.Machine
end

section
/-! A changed payload byte is caught by CHUNK_DECODE (41_crc.md R74, 42_chunk_frame.md R82 and R86): the frame reads as before but for
that byte of DATA, and with it the CRC over TYPE and DATA differs from the stored one. -/

namespace Sys2Proof.Machine

variable {s t : State}

theorem Memory.read32_write_outside {a c : Nat} (h : c < a ∨ a + 4 ≤ c) (m : Memory) (b : Byte) :
    (m.write c b).read32 a = m.read32 a :=
  Memory.read32_congr fun i hi => Memory.read_write_ne (by omega) m b

theorem Memory.readRange_write {m : Memory} {a n : Nat} {bs : List Byte} (h : m.readRange a n = some bs) (i : Nat) (b : Byte) :
    (m.write (a + i) b).readRange a n = some (bs.set i b) := by
  obtain ⟨hl, hr⟩ := Memory.readRange_eq_some.1 h
  refine Memory.readRange_eq_some.2 ⟨by simpa using hl, fun j hj => ?_⟩
  rw [List.length_set] at hj
  by_cases hij : i = j
  · subst hij; simp
  · rw [Memory.read_write_ne (by omega), hr j hj, List.getElem_set_ne hij]

theorem crcChunk_set_inj {type : Word} {d : List Byte} {i : Nat} (hi : i < d.length) {b b' : Byte} :
    crcChunk type (d.set i b) = crcChunk type (d.set i b') ↔ b = b' := by
  simp only [crcChunk, List.set_eq_take_cons_drop _ hi, ← List.append_assoc, crc32_byte_inj]

theorem crcChunk_set_ne (type : Word) {d : List Byte} {i : Nat} (hi : i < d.length) {b : Byte} (hb : b ≠ d[i]) :
    crcChunk type (d.set i b) ≠ crcChunk type d := by
  intro h
  have hself : d.set i d[i] = d := List.set_getElem_self hi
  exact hb ((crcChunk_set_inj hi).1 (h.trans (congrArg (crcChunk type) hself.symm)))

/-- A frame that fits, with a stored CRC other than its own (R86). -/
theorem exec_chunkDecode_of_bad_crc {len type crc : Word} {d : List Byte} (hn : s.inLen.toNat ≤ s.cfg.ibufSize)
    (hp : s.inPtr.toNat + 12 + len.toNat ≤ s.inLen.toNat) (hl : s.ibuf.read32 s.inPtr.toNat = some len)
    (ht : s.ibuf.read32 (s.inPtr.toNat + 4) = some type) (hd : s.ibuf.readRange (s.inPtr.toNat + 8) len.toNat = some d)
    (hc : s.ibuf.read32 (s.inPtr.toNat + 8 + len.toNat) = some crc) (hlet : letters type = true) (hbad : crcChunk type d ≠ crc) :
    exec .chunkDecode s = .next (s.raise .badChunkCrc) := by
  refine (execChunkDecode_of_length hn hp hl).trans ?_
  simp only [decodeBody, ht, hlet, hd, hc, Bool.true_eq_false, if_false, if_pos hbad]

/-- Any other value in a payload byte of a frame that decodes makes its decode raise BadChunkCrc. -/
theorem exec_chunkDecode_of_changed_payload {i : Nat} {b b' : Byte} (h : exec .chunkDecode s = .next t) (h0 : t.errcode = 0)
    (hi : i < t.chkLen.toNat) (hb : s.ibuf.read (s.inPtr.toNat + 8 + i) = some b) (hne : b' ≠ b) :
    exec .chunkDecode (s.setByte .ibuf (s.inPtr.toNat + 8 + i) b')
      = .next ((s.setByte .ibuf (s.inPtr.toNat + 8 + i) b').raise .badChunkCrc) := by
  cases exec_ends h with
  | raised he => exact absurd h0 (errsOf_code he).1
  | @chunkDecode len type crc d hn hp hl ht hd hc hlet hcrc =>
    have hi : i < len.toNat := hi
    obtain ⟨hlen, hread⟩ := Memory.readRange_eq_some.1 hd
    have hdi : d[i] = b := Option.some.inj ((hread i (by omega)).symm.trans hb)
    have hfield {a : Nat} {v : Word} (ha : s.ibuf.read32 a = some v)
        (hout : s.inPtr.toNat + 8 + i < a ∨ a + 4 ≤ s.inPtr.toNat + 8 + i) :
        (s.ibuf.write (s.inPtr.toNat + 8 + i) b').read32 a = some v := (Memory.read32_write_outside hout ..).trans ha
    have hl' := hfield hl (.inr (by omega))
    have ht' := hfield ht (.inr (by omega))
    have hc' := hfield hc (.inl (by omega))
    exact exec_chunkDecode_of_bad_crc hn hp hl' ht' (Memory.readRange_write hd i b') hc' hlet
      (hcrc ▸ crcChunk_set_ne type (hlen ▸ hi) (hdi ▸ hne))

/-- Settles O29: a flipped bit gives another byte (`xor_twoPow_ne`), and any other byte is caught. -/
theorem flippedPayloadBitIsCaught : Obligations.FlippedPayloadBitIsCaught :=
  fun _ _ _ _ b h h0 hi hk hb => exec_chunkDecode_of_changed_payload h h0 hi hb (xor_twoPow_ne hk b)

end Sys2Proof.Machine
end

section
/-! CHUNK_DECODE (42_chunk_frame.md R81 to R88): when each of its errors is raised, when it completes, and that both depend on the input
`IBUF[0 .. IN_LEN-1]` alone. -/

namespace Sys2Proof.Machine

variable {s u s₁ s₂ : State} {len type : Word} {d : List Byte} {e : Err}

/-! ### Error codes -/

theorem Err.code_ne_zero (e : Err) : e.code ≠ 0 := by cases e <;> decide

theorem Err.code_injective : Function.Injective Err.code := by
  intro e e' h
  revert h
  cases e <;> cases e' <;> decide

/-! ### The two ways a decode ends -/

/-- The condition of each error of CHUNK_DECODE, with the checks before it passed (R82 to R86). -/
def DecodeRaises (s : State) : Err → Prop
  | .bufferRange => s.cfg.ibufSize < s.inLen.toNat ∨ s.inLen.toNat < s.inPtr.toNat
  | .chunkTooShort => s.inLen.toNat ≤ s.cfg.ibufSize ∧ s.inPtr.toNat ≤ s.inLen.toNat ∧ s.inLen.toNat - s.inPtr.toNat < 12
  | .chunkLengthInvalid => s.inLen.toNat ≤ s.cfg.ibufSize ∧ s.inPtr.toNat + 12 ≤ s.inLen.toNat ∧
      ∃ len : Word, s.ibuf.Holds s.inPtr.toNat (be32bytes len) ∧ s.inLen.toNat - s.inPtr.toNat < len.toNat + 12
  | .invalidChunkType => s.inLen.toNat ≤ s.cfg.ibufSize ∧
      ∃ len type : Word, s.ibuf.Holds s.inPtr.toNat (be32bytes len ++ be32bytes type) ∧
        s.inPtr.toNat + 12 + len.toNat ≤ s.inLen.toNat ∧ letters type = false
  | .badChunkCrc => s.inLen.toNat ≤ s.cfg.ibufSize ∧
      ∃ (len type crc : Word) (d : List Byte), d.length = len.toNat ∧
        s.ibuf.Holds s.inPtr.toNat (frameBytes len type d crc) ∧
        s.inPtr.toNat + 12 + len.toNat ≤ s.inLen.toNat ∧ letters type = true ∧ crcChunk type d ≠ crc
  | .noSuchChunk | .invalidHeader | .fileTooShort | .illegalCommand => False

/-- A frame at IN_PTR that passes every check of R82. -/
structure GoodFrame (s : State) (len type : Word) (d : List Byte) : Prop where
  length : d.length = len.toNat
  typeLetters : letters type = true
  input : s.inLen.toNat ≤ s.cfg.ibufSize
  fits : s.inPtr.toNat + 12 + len.toNat ≤ s.inLen.toNat
  holds : s.ibuf.Holds s.inPtr.toNat (frameBytes len type d (crcChunk type d))

/-- What a completed decode of this frame leaves (R87). -/
def State.decoded (s : State) (len type : Word) (d : List Byte) : State :=
  (s.loadChunk len type (BitVec.ofNat 32 (s.inPtr.toNat + 8)) (crcChunk type d)
    (BitVec.ofNat 32 (s.inPtr.toNat + 12 + len.toNat))).complete

theorem exec_chunkDecode_of_raises (h : DecodeRaises s e) : exec .chunkDecode s = .next (s.raise e) := by
  cases e with
  | bufferRange => exact if_pos h
  | chunkTooShort =>
    obtain ⟨hn, hp, hshort⟩ := h
    exact (if_neg (by omega)).trans (if_pos hshort)
  | chunkLengthInvalid =>
    obtain ⟨hn, hp, len, hl, hlong⟩ := h
    rw [exec, execChunkDecode, if_neg (by omega), if_neg (by omega)]
    simp only [Memory.holds_be32bytes.1 hl, if_pos hlong]
  | invalidChunkType =>
    obtain ⟨hn, len, type, hlt, hp, hlet⟩ := h
    obtain ⟨hl, ht⟩ := Memory.holds_append.1 hlt
    refine (execChunkDecode_of_length hn hp (Memory.holds_be32bytes.1 hl)).trans ?_
    have ht : s.ibuf.read32 (s.inPtr.toNat + 4) = some type := Memory.holds_be32bytes.1 ht
    simp only [decodeBody, ht, if_pos hlet]
  | badChunkCrc =>
    obtain ⟨hn, len, type, crc, d, hlen, hframe, hp, hlet, hbad⟩ := h
    obtain ⟨hl, ht, hd, hc⟩ := Memory.holds_frame.1 hframe
    exact exec_chunkDecode_of_bad_crc hn hp hl ht (Memory.readRange_iff_holds.2 ⟨hlen, hd⟩) (hlen ▸ hc) hlet hbad
  | noSuchChunk | invalidHeader | fileTooShort | illegalCommand => exact h.elim

theorem exec_chunkDecode_of_goodFrame (h : GoodFrame s len type d) : exec .chunkDecode s = .next (s.decoded len type d) := by
  obtain ⟨hl, ht, hd, hc⟩ := Memory.holds_frame.1 h.holds
  rw [h.length] at hc
  refine (execChunkDecode_of_length h.input h.fits hl).trans ?_
  simp only [decodeBody, ht, h.typeLetters, Memory.readRange_iff_holds.2 ⟨h.length, hd⟩, hc, Bool.true_eq_false, if_false, ne_eq,
    not_true_eq_false]
  rfl

theorem decodeBody_next (hn : s.inLen.toNat ≤ s.cfg.ibufSize) (hp : s.inPtr.toNat + 12 + len.toNat ≤ s.inLen.toNat)
    (hl : s.ibuf.read32 s.inPtr.toNat = some len) (h : decodeBody s s.inPtr.toNat len = .next u) :
    (∃ e, DecodeRaises s e ∧ u = s.raise e) ∨ ∃ type d, GoodFrame s len type d ∧ u = s.decoded len type d := by
  simp only [decodeBody] at h
  split at h
  · cases h
  · rename_i type ht
    split at h
    · rename_i hlet
      cases h
      have hlt := Memory.holds_append.2 ⟨Memory.holds_be32bytes.2 hl, Memory.holds_be32bytes.2 ht⟩
      exact .inl ⟨.invalidChunkType, ⟨hn, len, type, hlt, hp, hlet⟩, rfl⟩
    · rename_i hlet
      rw [Bool.not_eq_false] at hlet
      split at h
      · cases h
      · rename_i d hd
        split at h
        · cases h
        · rename_i crc hc
          obtain ⟨hlen, hd⟩ := Memory.readRange_iff_holds.1 hd
          have hframe : s.ibuf.Holds s.inPtr.toNat (frameBytes len type d crc) :=
            Memory.holds_frame.2 ⟨hl, ht, hd, hlen.symm ▸ hc⟩
          split at h
          · rename_i hbad
            cases h
            exact .inl ⟨.badChunkCrc, ⟨hn, len, type, crc, d, hlen, hframe, hp, hlet, hbad⟩, rfl⟩
          · rename_i hcrc
            rw [ne_eq, not_not] at hcrc
            subst hcrc
            cases h
            exact .inr ⟨type, d, ⟨hlen, hlet, hn, hp, hframe⟩, rfl⟩

/-- A decode that ends has raised an error whose condition holds, or has decoded a good frame. -/
theorem exec_chunkDecode_next (h : exec .chunkDecode s = .next u) :
    (∃ e, DecodeRaises s e ∧ u = s.raise e) ∨ ∃ len type d, GoodFrame s len type d ∧ u = s.decoded len type d := by
  simp only [exec, execChunkDecode] at h
  split at h
  · rename_i hrange
    cases h
    exact .inl ⟨.bufferRange, hrange, rfl⟩
  · split at h
    · rename_i hrange hshort
      cases h
      exact .inl ⟨.chunkTooShort, ⟨by omega, by omega, hshort⟩, rfl⟩
    · split at h
      · cases h
      · rename_i len hl
        split at h
        · rename_i hlong
          cases h
          exact .inl ⟨.chunkLengthInvalid, ⟨by omega, by omega, len, Memory.holds_be32bytes.2 hl, hlong⟩, rfl⟩
        · exact (decodeBody_next (by omega) (by omega) hl h).imp_right fun hgood => ⟨len, hgood⟩

/-- A decode that ends with the code of an error has met its condition, and the condition leads to no other end. -/
theorem chunkDecode_errcode_iff (h : exec .chunkDecode s = .next u) (e : Err) : u.errcode = e.code ↔ DecodeRaises s e := by
  constructor
  · intro hcode
    rcases exec_chunkDecode_next h with ⟨e', hraises, rfl⟩ | ⟨len, type, d, -, rfl⟩
    · exact Err.code_injective hcode ▸ hraises
    · exact absurd hcode.symm e.code_ne_zero
  · intro hraises
    cases (exec_chunkDecode_of_raises hraises).symm.trans h
    rfl

/-- A decode that ends with code 0 has decoded a good frame. -/
theorem goodFrame_of_completed (h : exec .chunkDecode s = .next u) (h0 : u.errcode = 0) :
    ∃ len type d, GoodFrame s len type d ∧ u = s.decoded len type d := by
  refine (exec_chunkDecode_next h).resolve_left ?_
  rintro ⟨e, -, rfl⟩
  exact e.code_ne_zero h0

/-- An offset up to some word's value does not wrap. -/
theorem toNat_ofNat_of_le {n : Nat} {w : Word} (h : n ≤ w.toNat) : (BitVec.ofNat 32 n).toNat = n :=
  (BitVec.toNat_ofNat n 32).trans (Nat.mod_eq_of_lt (Nat.lt_of_le_of_lt h w.isLt))

theorem GoodFrame.decoded_chkDofs (h : GoodFrame s len type d) : (s.decoded len type d).chkDofs.toNat = s.inPtr.toNat + 8 :=
  toNat_ofNat_of_le (Nat.le_trans (by omega) h.fits)

theorem GoodFrame.decoded_inPtr (h : GoodFrame s len type d) :
    (s.decoded len type d).inPtr.toNat = s.inPtr.toNat + 12 + len.toNat :=
  toNat_ofNat_of_le h.fits

/-! ### What a decode depends on (R88) -/

/-- The two states agree on all that CHUNK_DECODE depends on: the input, where it starts and ends, and whether it is inside IBUF. -/
structure SameInput (s₁ s₂ : State) : Prop where
  inside : s₁.inLen.toNat ≤ s₁.cfg.ibufSize ↔ s₂.inLen.toNat ≤ s₂.cfg.ibufSize
  inLen : s₁.inLen = s₂.inLen
  inPtr : s₁.inPtr = s₂.inPtr
  bytes : ∀ a, a < s₁.inLen.toNat → s₁.ibuf.read a = s₂.ibuf.read a

theorem SameInput.symm (h : SameInput s₁ s₂) : SameInput s₂ s₁ :=
  ⟨h.inside.symm, h.inLen.symm, h.inPtr.symm, fun a ha => (h.bytes a (h.inLen ▸ ha)).symm⟩

theorem SameInput.holds (h : SameInput s₁ s₂) {bs : List Byte} (hb : s₁.ibuf.Holds s₁.inPtr.toNat bs)
    (hfit : s₁.inPtr.toNat + bs.length ≤ s₁.inLen.toNat) : s₂.ibuf.Holds s₂.inPtr.toNat bs := by
  intro i hi
  rw [← h.inPtr, ← h.bytes _ (by omega)]
  exact hb i hi

theorem DecodeRaises.of_sameInput (hs : SameInput s₁ s₂) (h : DecodeRaises s₁ e) : DecodeRaises s₂ e := by
  have hin := hs.inside
  have hlen := hs.inLen
  have hptr := hs.inPtr
  cases e with
  | bufferRange =>
    simp only [DecodeRaises, hlen, hptr] at h hin ⊢
    omega
  | chunkTooShort =>
    obtain ⟨hn, h⟩ := h
    exact ⟨hin.1 hn, by rwa [← hlen, ← hptr]⟩
  | chunkLengthInvalid =>
    obtain ⟨hn, hp, len, hl, hlong⟩ := h
    have hl := hs.holds hl (by rw [be32bytes_length]; omega)
    rw [hlen, hptr] at hp hlong
    exact ⟨hin.1 hn, hp, len, hl, hlong⟩
  | invalidChunkType =>
    obtain ⟨hn, len, type, hlt, hp, hlet⟩ := h
    have hlt := hs.holds hlt (by simp only [List.length_append, be32bytes_length]; omega)
    rw [hlen, hptr] at hp
    exact ⟨hin.1 hn, len, type, hlt, hp, hlet⟩
  | badChunkCrc =>
    obtain ⟨hn, len, type, crc, d, hd, hframe, hp, hlet, hbad⟩ := h
    have hframe := hs.holds hframe (by rw [frameBytes_length]; omega)
    rw [hlen, hptr] at hp
    exact ⟨hin.1 hn, len, type, crc, d, hd, hframe, hp, hlet, hbad⟩
  | noSuchChunk | invalidHeader | fileTooShort | illegalCommand => exact h

theorem GoodFrame.of_sameInput (hs : SameInput s₁ s₂) (h : GoodFrame s₁ len type d) : GoodFrame s₂ len type d where
  length := h.length
  typeLetters := h.typeLetters
  input := hs.inside.1 h.input
  fits := hs.inLen ▸ hs.inPtr ▸ h.fits
  holds := hs.holds h.holds (by have := h.fits; rw [frameBytes_length, h.length]; omega)

/-- The input decides whether a decode ends at all. -/
theorem SameInput.next (hs : SameInput s₁ s₂) (h : exec .chunkDecode s₁ = .next u) : ∃ u', exec .chunkDecode s₂ = .next u' := by
  rcases exec_chunkDecode_next h with ⟨e, hraises, -⟩ | ⟨len, type, d, hgood, -⟩
  · exact ⟨_, exec_chunkDecode_of_raises (hraises.of_sameInput hs)⟩
  · exact ⟨_, exec_chunkDecode_of_goodFrame (hgood.of_sameInput hs)⟩

theorem SameInput.fault (hs : SameInput s₁ s₂) {f : Fault} (h : exec .chunkDecode s₁ = .fault f) :
    exec .chunkDecode s₂ = .fault f := by
  rcases exec_stops .chunkDecode s₂ with ⟨u, hu⟩ | hf
  · obtain ⟨u', hu'⟩ := hs.symm.next hu
    cases h.symm.trans hu'
  · have hf' : exec .chunkDecode s₁ = .fault .unwrittenRead :=
      (exec_stops .chunkDecode s₁).resolve_left fun ⟨u, hu⟩ => by cases h.symm.trans hu
    rw [hf, ← hf', h]

/-- A written input is enough: the decode ends as it would in an IBUF of IN_LEN bytes, all of them written. -/
theorem exec_chunkDecode_ends_of_written (hw : s.ibuf.Written 0 s.inLen.toNat) : ∃ u, exec .chunkDecode s = .next u := by
  by_cases hn : s.inLen.toNat ≤ s.cfg.ibufSize
  · obtain ⟨u, hu⟩ := commandsEndOnWrittenInput .chunkDecode { s with cfg := { s.cfg with ibufSize := s.inLen.toNat } } hw
    refine SameInput.next ?_ hu
    exact ⟨iff_of_true (Nat.le_refl _) hn, rfl, rfl, fun _ _ => rfl⟩
  · exact ⟨_, exec_chunkDecode_of_raises (e := .bufferRange) (.inl (Nat.lt_of_not_le hn))⟩

/-! ### The obligations on CHUNK_DECODE -/

/-- Settles O21: a good frame is decoded (`exec_chunkDecode_of_goodFrame`), and its offsets, at most IN_LEN, do not wrap. -/
theorem decodeAcceptsGoodFrame : Obligations.DecodeAcceptsGoodFrame := by
  intro s len type d hlen hlet hn hp hframe
  have hgood : GoodFrame s len type d := ⟨hlen, hlet, hn, hp, hframe⟩
  exact ⟨_, exec_chunkDecode_of_goodFrame hgood, rfl, hgood.decoded_chkDofs, hgood.decoded_inPtr⟩

/-- Settles O22: each clause is one condition of `DecodeRaises`, which decides the raise. -/
theorem decodeRaisesInOrder : Obligations.DecodeRaisesInOrder :=
  ⟨fun _ h => exec_chunkDecode_of_raises (e := .bufferRange) h,
    fun _ hn hp h => exec_chunkDecode_of_raises (e := .chunkTooShort) ⟨hn, hp, h⟩,
    fun _ len hn hp hl h => exec_chunkDecode_of_raises (e := .chunkLengthInvalid) ⟨hn, hp, len, hl, h⟩,
    fun _ len type hn hp hlt h => exec_chunkDecode_of_raises (e := .invalidChunkType) ⟨hn, len, type, hlt, hp, h⟩,
    fun _ len type crc d hd hn hp hframe hlet h =>
      exec_chunkDecode_of_raises (e := .badChunkCrc) ⟨hn, len, type, crc, d, hd, hframe, hp, hlet, h⟩⟩

/-- Settles O23: the code of each error stands for its condition (`chunkDecode_errcode_iff`). -/
theorem decodeErrorsExactlyWhen : Obligations.DecodeErrorsExactlyWhen := fun _ _ h =>
  have code := chunkDecode_errcode_iff h
  ⟨code .bufferRange, code .chunkTooShort, code .chunkLengthInvalid, code .invalidChunkType, code .badChunkCrc⟩

/-- Settles O24: both ends of a decode have conditions on the input alone, so they carry over to a state with the same input. -/
theorem decodeReadsOnlyTheInput : Obligations.DecodeReadsOnlyTheInput := by
  refine ⟨fun s hw => exec_chunkDecode_ends_of_written hw, fun s₁ s₂ hcfg hlen hptr hbytes => ?_⟩
  have hs : SameInput s₁ s₂ := ⟨by rw [hcfg, hlen], hlen, hptr, hbytes⟩
  refine ⟨fun t₁ h => ?_, fun f h => hs.fault h⟩
  rcases exec_chunkDecode_next h with ⟨e, hraises, rfl⟩ | ⟨len, type, d, hgood, rfl⟩
  · exact ⟨fun _ => exec_chunkDecode_of_raises (hraises.of_sameInput hs), fun h0 => absurd h0 e.code_ne_zero⟩
  · refine ⟨fun hne => absurd rfl hne, fun _ => (exec_chunkDecode_of_goodFrame (hgood.of_sameInput hs)).trans ?_⟩
    simp only [State.decoded, hptr]
    rfl

end Sys2Proof.Machine
end

section
/-! CHUNK_NEW and CHUNK_ENCODE (42_chunk_frame.md R89 to R93): their checks in order and what they write, and that an encode gives a decoded
frame back. -/

namespace Sys2Proof.Machine

variable {s : State} {d : List Byte}

/-! ### CHUNK_NEW -/

theorem exec_chunkNew_of_range (hr : s.cfg.ibufSize < s.chkDofs.toNat + s.chkLen.toNat) :
    exec .chunkNew s = .next (s.raise .bufferRange) := if_pos hr

section InRange
variable (hf : s.chkDofs.toNat + s.chkLen.toNat ≤ s.cfg.ibufSize)
include hf

theorem exec_chunkNew_of_not_letters (hlet : letters s.chkType = false) :
    exec .chunkNew s = .next (s.raise .invalidChunkType) :=
  (if_neg (Nat.not_lt.2 hf)).trans (if_pos hlet)

theorem exec_chunkNew_of_payload (hlet : letters s.chkType = true) (hd : s.payload = some d) :
    exec .chunkNew s = .next (s.setChkCrc (crcChunk s.chkType d)).complete := by
  simp only [exec, execChunkNew, Nat.not_lt.2 hf, hlet, Bool.true_eq_false, if_false, hd]

end InRange

/-! ### CHUNK_ENCODE -/

theorem exec_chunkEncode_of_range
    (hr : s.cfg.ibufSize < s.chkDofs.toNat + s.chkLen.toNat ∨ s.cfg.obufSize < s.outPtr.toNat + 12 + s.chkLen.toNat) :
    exec .chunkEncode s = .next (s.raise .bufferRange) := by
  by_cases hi : s.cfg.ibufSize < s.chkDofs.toNat + s.chkLen.toNat
  · exact if_pos hi
  · exact (if_neg hi).trans (if_pos (hr.resolve_left hi))

section InRange
variable (hf : s.chkDofs.toNat + s.chkLen.toNat ≤ s.cfg.ibufSize) (ho : s.outPtr.toNat + 12 + s.chkLen.toNat ≤ s.cfg.obufSize)
include hf ho

theorem exec_chunkEncode_of_not_letters (hlet : letters s.chkType = false) :
    exec .chunkEncode s = .next (s.raise .invalidChunkType) :=
  (if_neg (Nat.not_lt.2 hf)).trans ((if_neg (Nat.not_lt.2 ho)).trans (if_pos hlet))

theorem exec_chunkEncode_of_payload (hlet : letters s.chkType = true) (hd : s.payload = some d) :
    exec .chunkEncode s = .next (s.emit (frameBytes s.chkLen s.chkType d s.chkCrc)).complete := by
  simp only [exec, execChunkEncode, Nat.not_lt.2 hf, Nat.not_lt.2 ho, hlet, Bool.true_eq_false, if_false, hd]

end InRange

/-! ### A decoded frame encoded again -/

/-- The frame a decode has taken from IBUF is what an encode then emits, at whatever OUT_PTR it fits. -/
theorem GoodFrame.exec_chunkEncode_decoded {len type q : Word} (h : GoodFrame s len type d)
    (hq : q.toNat + 12 + len.toNat ≤ s.cfg.obufSize) :
    exec .chunkEncode { s.decoded len type d with outPtr := q }
      = .next (State.emit { s.decoded len type d with outPtr := q } (frameBytes len type d (crcChunk type d))).complete := by
  obtain ⟨-, -, hd, -⟩ := Memory.holds_frame.1 h.holds
  have hdofs := h.decoded_chkDofs
  have hf : (s.decoded len type d).chkDofs.toNat + len.toNat ≤ s.cfg.ibufSize := by
    have := h.fits
    have := h.input
    omega
  exact exec_chunkEncode_of_payload hf hq h.typeLetters (payload_eq_some.2 ⟨h.length, hdofs ▸ hd⟩)

/-! ### The obligations on CHUNK_NEW and CHUNK_ENCODE -/

/-- Settles O26: the two checks and the completion, each by its rule. -/
theorem chunkNewResult : Obligations.ChunkNewResult :=
  ⟨by decide, fun _ hr => exec_chunkNew_of_range hr, fun _ hf hlet => exec_chunkNew_of_not_letters hf hlet,
    fun _ _ hf hlet hl hd => exec_chunkNew_of_payload hf hlet (payload_eq_some.2 ⟨hl, hd⟩)⟩

/-- Settles O27: the checks and the completion, each by its rule; the emitted bytes are the frame and no byte outside it moves. -/
theorem chunkEncodeResult : Obligations.ChunkEncodeResult := by
  refine ⟨by decide, fun _ hr => exec_chunkEncode_of_range hr, fun _ hf ho hlet => exec_chunkEncode_of_not_letters hf ho hlet,
    fun s d hf ho hlet hl hd => ?_⟩
  have hlength : s.outPtr.toNat + (frameBytes s.chkLen s.chkType d s.chkCrc).length = s.outPtr.toNat + 12 + s.chkLen.toNat := by
    rw [frameBytes_length, hl, Nat.add_assoc]
  refine ⟨s.obuf.writeBytes s.outPtr.toNat (frameBytes s.chkLen s.chkType d s.chkCrc), ?_, Memory.writeBytes_holds _ _ _,
    fun a ha => Memory.read_writeBytes_outside _ _ _ _ (hlength ▸ ha)⟩
  rw [exec_chunkEncode_of_payload hf ho hlet (payload_eq_some.2 ⟨hl, hd⟩), State.emit, hlength]
  rfl

/-- Settles O28: a successful decode has read a good frame, and the encode emits its bytes at q. -/
theorem chunkRoundTrip : Obligations.ChunkRoundTrip := by
  intro s t q h h0 hq
  obtain ⟨len, type, d, hgood, rfl⟩ := goodFrame_of_completed h h0
  refine ⟨_, hgood.exec_chunkEncode_decoded hq, rfl, fun i hi => ?_⟩
  have hi : i < (frameBytes len type d (crcChunk type d)).length := by
    rw [frameBytes_length, hgood.length]
    exact hi
  rw [hgood.holds i hi]
  exact Memory.writeBytes_holds _ _ _ i hi

end Sys2Proof.Machine
end

section
/-! The signature commands (43_stream.md R96 to R98): their checks in order and their writes. And a successful decode's progress
(R100). -/

namespace Sys2Proof.Machine

variable {s : State}

/-! ### SIG_CHECK -/

theorem exec_sigCheck_of_range (hn : s.cfg.ibufSize < s.inLen.toNat) : exec .sigCheck s = .next (s.raise .bufferRange) :=
  if_pos hn

section InRange
variable (hn : s.inLen.toNat ≤ s.cfg.ibufSize)
include hn

theorem exec_sigCheck_of_short (h8 : s.inLen.toNat < 8) : exec .sigCheck s = .next (s.raise .fileTooShort) :=
  (if_neg (Nat.not_lt.2 hn)).trans (if_pos h8)

/-- Eight written bytes at offset 0 decide the end (R97). -/
theorem exec_sigCheck_of_bytes {bs : List Byte} (h8 : 8 ≤ s.inLen.toNat) (hl : bs.length = 8) (hb : s.ibuf.Holds 0 bs) :
    exec .sigCheck s = if bs ≠ signature then .next (s.raise .invalidHeader) else .next (s.setInPtr 8).complete := by
  have hr : s.ibuf.readRange 0 8 = some bs := Memory.readRange_iff_holds.2 ⟨hl, hb⟩
  simp only [exec, execSigCheck, Nat.not_lt.2 hn, Nat.not_lt.2 h8, if_false, hr]

end InRange

/-! ### SIG_EMIT -/

theorem exec_sigEmit_of_range (ho : s.cfg.obufSize < s.outPtr.toNat + 8) : exec .sigEmit s = .next (s.raise .bufferRange) :=
  if_pos ho

theorem exec_sigEmit_of_fits (ho : s.outPtr.toNat + 8 ≤ s.cfg.obufSize) : exec .sigEmit s = .next (s.emit signature).complete :=
  if_neg (Nat.not_lt.2 ho)

/-! ### The obligations on the signature and on progress -/

/-- Settles O19: one clause for each check, and the bytes decide between the last two. -/
theorem sigCheckResult : Obligations.SigCheckResult :=
  ⟨by decide, fun _ hn => exec_sigCheck_of_range hn, fun _ hn h8 => exec_sigCheck_of_short hn h8,
    fun _ _ hn h8 hl hb hne => (exec_sigCheck_of_bytes hn h8 hl hb).trans (if_pos hne),
    fun _ hn h8 hb => (exec_sigCheck_of_bytes hn h8 rfl hb).trans (if_neg fun hne => hne rfl)⟩

/-- Settles O20: the range check's two ends; the emitted bytes are the signature and no byte outside them moves. -/
theorem sigEmitResult : Obligations.SigEmitResult :=
  ⟨by decide, fun _ ho => exec_sigEmit_of_range ho, fun s ho =>
    ⟨s.obuf.writeBytes s.outPtr.toNat signature, exec_sigEmit_of_fits ho, Memory.writeBytes_holds _ _ _,
      fun _ ha => Memory.read_writeBytes_outside _ _ _ _ ha⟩⟩

/-- Settles O25: a successful decode has read a good frame, which takes at least 12 bytes and ends inside the input. -/
theorem decodeAdvances : Obligations.DecodeAdvances := by
  intro s t h h0
  obtain ⟨len, type, d, hgood, rfl⟩ := goodFrame_of_completed h h0
  rw [hgood.decoded_inPtr]
  exact ⟨Nat.le_add_right _ _, hgood.fits, rfl⟩

end Sys2Proof.Machine
end

section
/-! Runs under every plan of turns (10_state.md R18, 70_reset_and_hazards.md R140, log entry 5). The plan of turns and the draw
counter decide neither what a command does nor what a host statement does while idle. So a run is followed move by move with both
left out: `Goes` is one such move and `Path` a sequence of them. Every plan leads along a path (`Path.runs`), and a run whose host
accepts has gone along it (`Path.onAccept`). -/

namespace Sys2Proof.Machine

variable {s u : State} {o : Result} {i : Instr} {st : HStmt} {P : State → Prop}

/-! ### The plan and the draw counter -/

/-- The state with another plan of turns and another draw counter. -/
def State.replan (s : State) (ts : List Agent) (d : Nat) : State := { s with turns := ts, draws := d }

/-- A result with the plan and the draw counter of its state replaced. -/
def replanned (ts : List Agent) (d : Nat) : Result → Result
  | .next t => .next (t.replan ts d)
  | .fault f => .fault f
  | .refused r => .refused r

/-- What a host read answers, with the plan and the draw counter of the state after it replaced. -/
def answerReplanned {α : Type} (ts : List Agent) (d : Nat) :
    Host.Outcome (α × State) Fault Refusal → Host.Outcome (α × State) Fault Refusal
  | .next (v, t) => .next (v, t.replan ts d)
  | .fault f => .fault f
  | .refused r => .refused r

section Replan
variable (s : State) (ts : List Agent) (d : Nat)

@[simp] theorem State.replan_inPtr : (s.replan ts d).inPtr = s.inPtr := rfl
@[simp] theorem State.replan_ibuf : (s.replan ts d).ibuf = s.ibuf := rfl
@[simp] theorem State.replan_busy : (s.replan ts d).busy = s.busy := rfl
@[simp] theorem State.replan_host : (s.replan ts d).host = s.host := rfl
@[simp] theorem State.replan_bufSize (b : Buffer) : (s.replan ts d).bufSize b = s.bufSize b := by cases b <;> rfl
@[simp] theorem State.replan_bufOf (b : Buffer) : (s.replan ts d).bufOf b = s.bufOf b := by cases b <;> rfl
@[simp] theorem State.replan_payload : (s.replan ts d).payload = s.payload := rfl

variable {ts d}

/-- A check that does not see the plan takes both states the same way. -/
theorem ite_replanned {c : Prop} [Decidable c] {a a' b b' : Result} (ha : a' = replanned ts d a) (hb : b' = replanned ts d b) :
    (if c then a' else b') = replanned ts d (if c then a else b) := by
  split
  · exact ha
  · exact hb

variable (ts d)

theorem decodeBody_replan (p : Nat) (len : Word) : decodeBody (s.replan ts d) p len = replanned ts d (decodeBody s p len) := by
  simp only [decodeBody, State.replan_ibuf]
  cases s.ibuf.read32 (p + 4) with
  | none => rfl
  | some t =>
    refine ite_replanned rfl ?_
    cases s.ibuf.readRange (p + 8) len.toNat with
    | none => rfl
    | some data =>
      cases s.ibuf.read32 (p + 8 + len.toNat) with
      | none => rfl
      | some c => exact ite_replanned rfl rfl

/-- A command does not see the plan or the draw counter. -/
theorem exec_replan (i : Instr) : exec i (s.replan ts d) = replanned ts d (exec i s) := by
  cases i with
  | crcInit | crcByte => rfl
  | typeCheck | sigEmit => exact ite_replanned rfl rfl
  | crcBuf =>
    refine ite_replanned rfl ?_
    rw [State.replan_payload]
    cases s.payload <;> rfl
  | chunkNew =>
    refine ite_replanned rfl (ite_replanned rfl ?_)
    rw [State.replan_payload]
    cases s.payload <;> rfl
  | chunkEncode =>
    refine ite_replanned rfl (ite_replanned rfl (ite_replanned rfl ?_))
    rw [State.replan_payload]
    cases s.payload <;> rfl
  | sigCheck =>
    refine ite_replanned rfl (ite_replanned rfl ?_)
    rw [State.replan_ibuf]
    cases s.ibuf.readRange 0 8 with
    | none => rfl
    | some bs => exact ite_replanned rfl rfl
  | chunkDecode =>
    refine ite_replanned rfl (ite_replanned rfl ?_)
    rw [State.replan_ibuf, State.replan_inPtr]
    cases s.ibuf.read32 s.inPtr.toNat with
    | none => rfl
    | some len => exact ite_replanned rfl (decodeBody_replan s ts d _ len)

/-! ### The host port and the host's statements -/

theorem readReg_replan (r : RegName) : (s.replan ts d).readReg r = s.readReg r := by cases r <;> rfl

theorem hostWriteByte_replan (buf : Buffer) (a : Nat) (b : Byte) :
    hostWriteByte buf a b (s.replan ts d) = replanned ts d (hostWriteByte buf a b s) := by
  cases buf <;> exact ite_replanned rfl (ite_replanned rfl rfl)

theorem hostJump_replan (l : Nat) : hostJump l (s.replan ts d) = replanned ts d (hostJump l s) := by
  simp only [hostJump, State.replan_host]
  cases findLabel l s.host.prog <;> rfl

section Idle
variable {s} (hi : s.phase = .idle)
include hi

theorem hostWriteReg_replan (r : RegName) (v : Word) : (s.replan ts d).hostWriteReg r v = (s.hostWriteReg r v).replan ts d := by
  cases r with
  | status => simp only [State.hostWriteReg]; cases v.getLsbD 3 <;> rfl
  | cmd | errcode | tstat | inLen | inPtr | outPtr | chkLen | chkType | chkDofs | chkCrc | crcState | crcValue =>
    simp only [State.hostWriteReg, State.replan_busy, busy_of_idle hi, Bool.false_eq_true, if_false]
    rfl

theorem hostWrite_replan (off width : Nat) (v : Word) :
    hostWrite off width v (s.replan ts d) = replanned ts d (hostWrite off width v s) := by
  refine ite_replanned rfl (ite_replanned ?_ rfl)
  cases regAt off with
  | none => rfl
  | some r => exact congrArg Host.Outcome.next (hostWriteReg_replan ts d hi r v)

theorem hostRead_replan (off width : Nat) : hostRead off width (s.replan ts d) = answerReplanned ts d (hostRead off width s) := by
  simp only [hostRead, State.replan_busy, busy_of_idle hi, Bool.false_eq_true, if_false, readReg_replan]
  split
  · rfl
  · split
    · cases regAt off <;> rfl
    · rfl

theorem hostReadByte_replan (buf : Buffer) (a : Nat) :
    hostReadByte buf a (s.replan ts d) = answerReplanned ts d (hostReadByte buf a s) := by
  simp only [hostReadByte, State.replan_busy, busy_of_idle hi, Bool.and_false, Bool.false_and, Bool.false_eq_true, if_false,
    State.replan_bufSize, State.replan_bufOf]
  split
  · cases (s.bufOf buf).read a <;> rfl
  · rfl

/-- While idle a host statement does not see the plan or the draw counter. -/
theorem execStmt_replan (st : HStmt) : execStmt st (s.replan ts d) = replanned ts d (execStmt st s) := by
  cases st with
  | wr off width v =>
    simp only [execStmt, hostWrite_replan ts d hi, State.replan_host]
    cases hostWrite off width (BitVec.ofNat 32 (s.host.eval v)) s <;> rfl
  | rd off width x =>
    simp only [execStmt, hostRead_replan ts d hi]
    cases hostRead off width s <;> rfl
  | wrb buf a v =>
    simp only [execStmt, hostWriteByte_replan, State.replan_host]
    cases hostWriteByte buf (s.host.eval a) (BitVec.ofNat 8 (s.host.eval v)) s <;> rfl
  | rdb buf a x =>
    simp only [execStmt, hostReadByte_replan ts d hi, State.replan_host]
    cases hostReadByte buf (s.host.eval a) s <;> rfl
  | wait =>
    rw [execStmt_wait_idle hi]
    exact execStmt_wait_idle (s := s.replan ts d) hi
  | goto l => exact hostJump_replan s ts d l
  | ifGoto c l => exact ite_replanned (hostJump_replan s ts d l) rfl
  | nextDesc i l t o c done =>
    simp only [execStmt, State.replan_host]
    cases s.host.list[s.host.eval i]? with
    | none => exact hostJump_replan s ts d done
    | some desc => rfl
  | label | fail | accept | set | append | clearList => rfl

end Idle
end Replan

/-! ### Moves -/

/-- From s the host program, still running, goes on to o: under every plan without a reset, a step either makes this move or uses
up a planned turn. -/
structure Goes (s : State) (o : Result) : Prop where
  running : s.host.status = .running
  moves : ∀ ts d, .reset ∉ ts → ∃ ts' d', .reset ∉ ts' ∧
    (step (s.replan ts d) = replanned ts' d' o ∨ (step (s.replan ts d) = .next (s.replan ts' d') ∧ ts'.length < ts.length))

/-- A run from s to u by such moves. -/
abbrev Path : State → State → Prop := Relation.ReflTransGen fun s u => Goes s (.next u)

/-- Idle, the engine's turn is used up. -/
theorem step_engine_idle (hi : s.phase = .idle) (rest : List Agent) (d : Nat) :
    step (s.replan (.engine :: rest) d) = .next (s.replan rest d) := by
  simp [step, engineStep, State.replan, State.setTurns, hi]

/-- Idle, the host's statement is the next move. -/
theorem goes_execStmt (hi : s.phase = .idle) (hr : s.host.status = .running) (hst : s.host.prog[s.host.pc]? = some st) :
    Goes s (execStmt st s) := by
  refine ⟨hr, fun ts d hts => ?_⟩
  have moves {rest} (h : ts = .host :: rest ∨ (ts = [] ∧ s.phase = .idle ∧ rest = [])) :
      step (s.replan ts d) = replanned rest d (execStmt st s) :=
    (step_of_hostMoves (s := s.replan ts d) ⟨hr, hst, h⟩).trans (execStmt_replan rest d hi st)
  match ts, hts with
  | [], hts => exact ⟨[], d, hts, .inl (moves (.inr ⟨rfl, hi, rfl⟩))⟩
  | .host :: rest, hts => exact ⟨rest, d, List.not_mem_of_not_mem_cons hts, .inl (moves (.inl rfl))⟩
  | .engine :: rest, hts =>
    exact ⟨rest, d, List.not_mem_of_not_mem_cons hts, .inr ⟨step_engine_idle hi rest d, Nat.lt_succ_self _⟩⟩
  | .reset :: rest, hts => exact absurd List.mem_cons_self hts

/-- A poll that finds BUSY = 1 draws a free value and leaves the rest. -/
theorem execStmt_wait_busy (hp : s.phase = .run) : execStmt .wait s = .next s.drew := by
  have hbusy : (s.readBusy .status).1.getLsbD 0 = true := (statusWord_bits _ _ _ _).1
  simp only [execStmt, hostRead_reg, busy_of_run hp, if_true, hbusy]
  rfl

/-- While the host polls, the latched command is the next move. -/
theorem goes_exec (hp : s.phase = .run) (hr : s.host.status = .running) (hst : s.host.prog[s.host.pc]? = some .wait)
    (hd : decode s.pend = .ok i) : Goes s (exec i s) := by
  refine ⟨hr, fun ts d hts => ?_⟩
  have moves {rest} (h : ts = .engine :: rest ∨ (ts = [] ∧ rest = [])) :
      step (s.replan ts d) = replanned rest d (exec i s) :=
    (step_of_command (s := s.replan ts d) ⟨hp, h⟩ hd).trans (exec_replan s rest d i)
  match ts, hts with
  | [], hts => exact ⟨[], d, hts, .inl (moves (.inr ⟨rfl, rfl⟩))⟩
  | .engine :: rest, hts => exact ⟨rest, d, List.not_mem_of_not_mem_cons hts, .inl (moves (.inl rfl))⟩
  | .host :: rest, hts =>
    refine ⟨rest, d + 1, List.not_mem_of_not_mem_cons hts, .inr ⟨?_, Nat.lt_succ_self _⟩⟩
    have hpoll := step_of_hostMoves (s := s.replan (.host :: rest) d) ⟨hr, hst, .inl rfl⟩
    exact hpoll.trans (execStmt_wait_busy (s := s.replan rest d) hp)
  | .reset :: rest, hts => exact absurd List.mem_cons_self hts

/-! ### A path under a plan -/

theorem runSteps_trans {m n : Nat} (h : runSteps m s = .next u) (h' : runSteps n u = o) : runSteps (m + n) s = o := by
  induction m generalizing s with
  | zero => cases h; rwa [Nat.zero_add]
  | succ m ih =>
    rw [Nat.add_right_comm]
    simp only [runSteps] at h ⊢
    split at h
    · exact ih h
    · cases h
    · cases h

/-- Every plan leads to the move, by induction on the planned turns. -/
theorem Goes.runs (h : Goes s (.next u)) (ts : List Agent) (d : Nat) (hts : .reset ∉ ts) :
    ∃ n ts' d', .reset ∉ ts' ∧ runSteps n (s.replan ts d) = .next (u.replan ts' d') := by
  obtain ⟨ts', d', hts', hmove | ⟨hidle, hlt⟩⟩ := h.moves ts d hts
  · exact ⟨1, ts', d', hts', runSteps_of_step hmove⟩
  · obtain ⟨n, ts'', d'', hts'', hn⟩ := h.runs ts' d' hts'
    exact ⟨n + 1, ts'', d'', hts'', (runSteps_of_step hidle).trans hn⟩
termination_by ts.length

/-- Every plan leads along the path. -/
theorem Path.runs (h : Path s u) (ts : List Agent) (d : Nat) (hts : .reset ∉ ts) :
    ∃ n ts' d', .reset ∉ ts' ∧ runSteps n (s.replan ts d) = .next (u.replan ts' d') := by
  induction h with
  | refl => exact ⟨0, ts, d, hts, rfl⟩
  | tail _ hmove ih =>
    obtain ⟨m, ts', d', hts', hm⟩ := ih
    obtain ⟨n, ts'', d'', hts'', hn⟩ := hmove.runs ts' d' hts'
    exact ⟨m + n, ts'', d'', hts'', runSteps_trans hm hn⟩

/-! ### What an accepting run ends in -/

/-- Whatever the plan, a run from s whose host accepts ends in a state with P. -/
def OnAccept (P : State → Prop) (s : State) : Prop :=
  ∀ k ts d t, .reset ∉ ts → runSteps k (s.replan ts d) = .next t → t.host.status = .accepted → P t

theorem runSteps_succ {k : Nat} {t : State} (h : runSteps (k + 1) s = .next t) :
    ∃ v, step s = .next v ∧ runSteps k v = .next t := by
  simp only [runSteps] at h
  split at h
  · exact ⟨_, ‹_›, h⟩
  · cases h
  · cases h

/-- A run goes through its next move, or ends before it with the host running. -/
theorem Goes.onAccept (h : Goes s o) (ho : ∀ u, o = .next u → OnAccept P u) : OnAccept P s := by
  intro k
  induction k with
  | zero =>
    intro ts d t hts hrun hacc
    cases hrun
    exact absurd (h.running.symm.trans hacc) (by decide)
  | succ k ih =>
    intro ts d t hts hrun hacc
    obtain ⟨v, hv, hrun⟩ := runSteps_succ hrun
    obtain ⟨ts', d', hts', hmove | ⟨hidle, -⟩⟩ := h.moves ts d hts
    · cases o with
      | next u =>
        cases hmove.symm.trans hv
        exact ho u rfl k ts' d' t hts' hrun hacc
      | fault | refused => cases hmove.symm.trans hv
    · cases hidle.symm.trans hv
      exact ih ts' d' t hts' hrun hacc

/-- A run whose host accepts has gone along the path. -/
theorem Path.onAccept (h : Path s u) (hu : OnAccept P u) : OnAccept P s := by
  induction h using Relation.ReflTransGen.head_induction_on with
  | refl => exact hu
  | head hmove _ ih => exact hmove.onAccept fun v hv => by cases hv; exact ih

/-- Idle with a stopped host, a step only uses up a turn (log entry 16). -/
theorem step_stopped (hi : s.phase = .idle) (hs : s.host.status ≠ .running) {ts : List Agent} (hts : .reset ∉ ts) (d : Nat) :
    step (s.replan ts d) = .next (s.replan ts.tail d) := by
  have hhost (ts) : hostStep (s.replan ts d) = .next (s.replan ts d) := by
    simp only [hostStep, State.replan_host]
    split
    · exact absurd ‹_› hs
    · rfl
    · rfl
  match ts, hts with
  | [], hts => exact (if_neg (by simp [busy_of_idle hi])).trans (hhost [])
  | .host :: rest, hts => exact hhost rest
  | .engine :: rest, hts => exact step_engine_idle hi rest d
  | .reset :: rest, hts => exact absurd List.mem_cons_self hts

/-- A stopped host stays as it is. -/
theorem onAccept_of_stopped (hi : s.phase = .idle) (hs : s.host.status ≠ .running)
    (hP : s.host.status = .accepted → ∀ ts d, .reset ∉ ts → P (s.replan ts d)) : OnAccept P s := by
  intro k
  induction k with
  | zero =>
    intro ts d t hts hrun hacc
    cases hrun
    exact hP hacc ts d hts
  | succ k ih =>
    intro ts d t hts hrun hacc
    obtain ⟨v, hv, hrun⟩ := runSteps_succ hrun
    cases (step_stopped hi hs hts d).symm.trans hv
    exact ih _ d t (fun h => hts (List.mem_of_mem_tail h)) hrun hacc

end Sys2Proof.Machine
end

section
/-! The host's code step by step (30_encoding.md R62, R63): its variables, what each statement of PARSE and SERIALIZE leads to, and
the blocks `DO` and `CHECK` that both are made of. -/

namespace Sys2Proof.Machine

/-! ### Host variables -/

theorem HostAgent.get_put_same {h : HostAgent} (hv : h.varsWf = true) (x v : Nat) : (h.put x v).get x = v := by
  simp only [HostAgent.varsWf, Bool.and_eq_true] at hv
  simp only [HostAgent.get, HostAgent.put]
  split
  · rw [lookupKey_eraseKey_same x hv.1]; exact Eq.symm ‹_›
  · rw [lookupKey_insertKey_same]; rfl

theorem HostAgent.get_put_ne {x y : Nat} (hne : y ≠ x) (h : HostAgent) (v : Nat) : (h.put x v).get y = h.get y := by
  simp only [HostAgent.get, HostAgent.put]
  split
  · rw [lookupKey_eraseKey_ne hne]
  · rw [lookupKey_insertKey_ne hne]

/-- The host at another position. -/
def HostAgent.jump (h : HostAgent) (k : Nat) : HostAgent := { h with pc := k }

@[simp] theorem HostAgent.get_jump (h : HostAgent) (k x : Nat) : (h.jump k).get x = h.get x := rfl
@[simp] theorem HostAgent.list_jump (h : HostAgent) (k : Nat) : (h.jump k).list = h.list := rfl
@[simp] theorem HostAgent.varsWf_jump (h : HostAgent) (k : Nat) : (h.jump k).varsWf = h.varsWf := rfl
@[simp] theorem HostAgent.put_jump (h : HostAgent) (k x v : Nat) : (h.jump k).put x v = (h.put x v).jump k := rfl
@[simp] theorem HostAgent.get_advance (h : HostAgent) (x : Nat) : h.advance.get x = h.get x := rfl
@[simp] theorem HostAgent.list_advance (h : HostAgent) : h.advance.list = h.list := rfl
@[simp] theorem HostAgent.put_advance (h : HostAgent) (x v : Nat) : h.advance.put x v = (h.put x v).advance := rfl
@[simp] theorem HostAgent.list_put (h : HostAgent) (x v : Nat) : (h.put x v).list = h.list := rfl

@[simp] theorem State.setHost_setHost (s : State) (a b : HostAgent) : (s.setHost a).setHost b = s.setHost b := rfl
@[simp] theorem State.writeReg_setHost (s : State) (a : HostAgent) (r : RegName) (v : Word) :
    (s.setHost a).writeReg r v = (s.writeReg r v).setHost a := by cases r <;> rfl
@[simp] theorem State.readReg_setHost (s : State) (a : HostAgent) (r : RegName) : (s.setHost a).readReg r = s.readReg r := by
  cases r <;> rfl

/-! ### Descriptors in the block and in the host's variables -/

/-- The descriptor of the current chunk (R94). -/
def State.descriptor (s : State) : Descriptor := ⟨s.chkLen.toNat, s.chkType.toNat, s.chkDofs.toNat, s.chkCrc.toNat⟩

/-- The block with a descriptor written to the current chunk (R101). -/
def State.loadDescriptor (s : State) (d : Descriptor) : State :=
  (((s.writeReg .chkLen (BitVec.ofNat 32 d.len)).writeReg .chkType (BitVec.ofNat 32 d.type)).writeReg .chkDofs
    (BitVec.ofNat 32 d.dofs)).writeReg .chkCrc (BitVec.ofNat 32 d.crc)

/-- The descriptor in the four host variables of R99 and R101. -/
def HostAgent.descriptor (h : HostAgent) : Descriptor := ⟨h.get vL, h.get vT, h.get vO, h.get vC⟩

/-- The host with a descriptor in the four variables. -/
def HostAgent.load (h : HostAgent) (d : Descriptor) : HostAgent := (((h.put vL d.len).put vT d.type).put vO d.dofs).put vC d.crc

section Load
variable {a : HostAgent} (hv : a.varsWf = true) (d : Descriptor)
include hv

theorem HostAgent.varsWf_load : (a.load d).varsWf = true :=
  varsWf_put (varsWf_put (varsWf_put (varsWf_put hv vL _) vT _) vO _) vC _

theorem HostAgent.descriptor_load : (a.load d).descriptor = d := by
  have hL := varsWf_put hv vL d.len
  have hT := varsWf_put hL vT d.type
  have hO := varsWf_put hT vO d.dofs
  simp (disch := decide) only [HostAgent.load, HostAgent.descriptor, get_put_same hv, get_put_same hL, get_put_same hT,
    get_put_same hO, get_put_ne]

end Load

theorem HostAgent.get_load_vI (a : HostAgent) (d : Descriptor) : (a.load d).get vI = a.get vI := by
  simp (disch := decide) only [HostAgent.load, get_put_ne]

/-! ### Where a run stands -/

/-- The engine is idle and the host runs p, at position k. -/
structure State.At (s : State) (p : List HStmt) (k : Nat) : Prop where
  idle : s.phase = .idle
  running : s.host.status = .running
  prog : s.host.prog = p
  pc : s.host.pc = k

/-- A run from s comes to u, which stands at position k of p. -/
structure Reaches (s : State) (p : List HStmt) (k : Nat) (u : State) : Prop where
  path : Path s u
  place : u.At p k

variable {s u v w : State} {p : List HStmt} {k j x l e exit : Nat} {st : HStmt} {a : HExpr} {c : HCond} {r : RegName}
  {i : Instr} {P : State → Prop}

theorem State.At.goes (h : s.At p k) (hst : p[k]? = some st) : Goes s (execStmt st s) :=
  goes_execStmt h.idle h.running (by rw [h.prog, h.pc]; exact hst)

theorem State.At.reaches (h : s.At p k) : Reaches s p k s := ⟨.refl, h⟩

theorem Reaches.step (h : Reaches s p k u) (hst : p[k]? = some st) (hx : execStmt st u = .next w) (hw : w.At p j) :
    Reaches s p j w :=
  ⟨h.path.tail (hx ▸ h.place.goes hst), hw⟩

/-! ### One statement -/

theorem State.At.hostNext (h : s.At p k) : s.hostNext.At p (k + 1) := ⟨h.idle, h.running, h.prog, congrArg (· + 1) h.pc⟩

theorem State.At.hostTake (h : s.At p k) (x n : Nat) : (s.hostTake x n).At p (k + 1) :=
  ⟨h.idle, h.running, h.prog, congrArg (· + 1) h.pc⟩

theorem State.At.jump (h : s.At p k) (j : Nat) : (s.setHost (s.host.jump j)).At p j := ⟨h.idle, h.running, h.prog, rfl⟩

theorem hostJump_of_label (h : s.At p k) (hl : findLabel l p = some j) : hostJump l s = .next (s.setHost (s.host.jump j)) := by
  simp only [hostJump, HostAgent.jump, h.prog, hl]

theorem Reaches.label (h : Reaches s p k u) (hst : p[k]? = some (.label l)) : Reaches s p (k + 1) u.hostNext :=
  h.step hst rfl h.place.hostNext

theorem Reaches.set (h : Reaches s p k u) (hst : p[k]? = some (.set x a)) : Reaches s p (k + 1) (u.hostTake x (u.host.eval a)) :=
  h.step hst rfl (h.place.hostTake x _)

theorem Reaches.append {xl xt xo xc : Nat} (h : Reaches s p k u) (hst : p[k]? = some (.append xl xt xo xc)) :
    Reaches s p (k + 1) (u.setHost { u.host.advance with
      list := u.host.list ++ [⟨u.host.get xl, u.host.get xt, u.host.get xo, u.host.get xc⟩] }) :=
  h.step hst rfl ⟨h.place.idle, h.place.running, h.place.prog, congrArg (· + 1) h.place.pc⟩

theorem Reaches.clearList (h : Reaches s p k u) (hst : p[k]? = some .clearList) :
    Reaches s p (k + 1) (u.setHost { u.host.advance with list := [] }) :=
  h.step hst rfl ⟨h.place.idle, h.place.running, h.place.prog, congrArg (· + 1) h.place.pc⟩

theorem Reaches.accept (h : Reaches s p k u) (hst : p[k]? = some .accept) :
    Path s (u.setHost { u.host with status := .accepted }) := h.path.tail (h.place.goes hst)

theorem Reaches.nextDesc_of_some {d : Descriptor} (h : Reaches s p k u) (hst : p[k]? = some (.nextDesc a vL vT vO vC l))
    (hd : u.host.list[u.host.eval a]? = some d) : Reaches s p (k + 1) (u.setHost (u.host.load d).advance) :=
  h.step hst (by simp only [execStmt, hd]; rfl) ⟨h.place.idle, h.place.running, h.place.prog, congrArg (· + 1) h.place.pc⟩

theorem Reaches.nextDesc_of_none (h : Reaches s p k u) (hst : p[k]? = some (.nextDesc a vL vT vO vC l))
    (hd : u.host.list[u.host.eval a]? = none) (hl : findLabel l p = some j) :
    Reaches s p j (u.setHost (u.host.jump j)) :=
  h.step hst (by simp only [execStmt, hd]; exact hostJump_of_label h.place hl) (h.place.jump j)

theorem Reaches.goto (h : Reaches s p k u) (hst : p[k]? = some (.goto l)) (hl : findLabel l p = some j) :
    Reaches s p j (u.setHost (u.host.jump j)) :=
  h.step hst (hostJump_of_label h.place hl) (h.place.jump j)

theorem Reaches.ifGoto_of_holds (h : Reaches s p k u) (hst : p[k]? = some (.ifGoto c l)) (hl : findLabel l p = some j)
    (hc : u.host.holds c = true) : Reaches s p j (u.setHost (u.host.jump j)) :=
  h.step hst ((if_pos hc).trans (hostJump_of_label h.place hl)) (h.place.jump j)

theorem Reaches.ifGoto_of_not_holds (h : Reaches s p k u) (hst : p[k]? = some (.ifGoto c l)) (hc : u.host.holds c = false) :
    Reaches s p (k + 1) u.hostNext :=
  h.step hst (if_neg (by simp [hc])) h.place.hostNext

theorem Reaches.rd (h : Reaches s p k u) (hst : p[k]? = some (RD r x)) :
    Reaches s p (k + 1) (u.hostTake x (u.readReg r).toNat) := by
  refine h.step hst ?_ (h.place.hostTake x _)
  simp only [RD, execStmt, hostRead_idle h.place.idle]

theorem Reaches.wr (h : Reaches s p k u) (hst : p[k]? = some (WR r a)) (hr : r.access = .rw) :
    Reaches s p (k + 1) (u.writeReg r (BitVec.ofNat 32 (u.host.eval a))).hostNext := by
  have hw := hostWrite_idle_rw h.place.idle hr (BitVec.ofNat 32 (u.host.eval a))
  refine h.step hst (by simp only [WR, execStmt, hw]) (State.At.hostNext ?_)
  exact ⟨by simpa using h.place.idle, by simpa using h.place.running, by simpa using h.place.prog, by simpa using h.place.pc⟩

/-! ### DO and CHECK (R63) -/

/-- The state in which the engine performs the command of a `DO`. -/
def State.issued (s : State) (i : Instr) : State := (s.issue (encode i)).hostNext

/-- `DO i` and `CHECK e, exit` stand at position k, and the exit at position j. -/
structure DoCheckAt (p : List HStmt) (k : Nat) (i : Instr) (e exit j : Nat) : Prop where
  cmd : p[k]? = some (CMD i)
  wait : p[k + 1]? = some .wait
  read : p[k + 2]? = some (RD .errcode e)
  test : p[k + 3]? = some (.ifGoto (.ne (.var e) (.lit 0)) exit)
  label : findLabel exit p = some j

/-- After the CMD write the command is the next move. -/
theorem State.At.goes_issued (h : s.At p k) (hcmd : p[k]? = some (CMD i)) (hwait : p[k + 1]? = some .wait) :
    Goes s (.next (s.issued i)) ∧ Goes (s.issued i) (exec i (s.issued i)) :=
  ⟨execStmt_CMD h.idle i ▸ h.goes hcmd,
    goes_exec rfl h.running (by rw [← hwait, ← h.prog, ← h.pc]; rfl) (decode_encode i)⟩

/-- `DO` ends with the command's end. -/
theorem Reaches.doCommand (h : Reaches s p k u) (hcmd : p[k]? = some (CMD i)) (hwait : p[k + 1]? = some .wait)
    (hx : exec i (u.issued i) = .next v) : Reaches s p (k + 2) v.hostNext := by
  obtain ⟨hissue, hexec⟩ := h.place.goes_issued hcmd hwait
  have hends := exec_ends hx
  have hhost : v.host = u.host.advance := hends.host
  have hat : v.At p (k + 1) :=
    ⟨hends.phase, hhost ▸ h.place.running, hhost ▸ h.place.prog, hhost ▸ congrArg (· + 1) h.place.pc⟩
  have hv : Reaches s p (k + 1) v := ⟨(h.path.tail hissue).tail (hx ▸ hexec), hat⟩
  exact hv.step hwait (execStmt_wait_idle hends.phase) hat.hostNext

theorem toNat_readReg_errcode (s : State) : (s.readReg .errcode).toNat = s.errcode.toNat := by
  simp only [State.readReg, BitVec.toNat_setWidth]; omega

/-- The host takes the command's code and is about to test it. -/
theorem Reaches.doRead (h : Reaches s p k u) (hcode : DoCheckAt p k i e exit j) (hv : u.host.varsWf = true)
    (hx : exec i (u.issued i) = .next v) :
    Reaches s p (k + 3) (v.hostNext.hostTake e v.errcode.toNat) ∧
      (v.hostNext.hostTake e v.errcode.toNat).host.holds (.ne (.var e) (.lit 0)) = decide (v.errcode ≠ 0) := by
  have hhost : v.host = u.host.advance := (exec_ends hx).host
  have hread := (h.doCommand hcode.cmd hcode.wait hx).rd hcode.read
  rw [toNat_readReg_errcode] at hread
  refine ⟨hread, decide_eq_decide.2 (not_congr ?_)⟩
  have hget : (v.host.advance.put e v.errcode.toNat).get e = v.errcode.toNat :=
    HostAgent.get_put_same (by simpa [hhost] using hv) e _
  exact (Eq.congr_left hget).trans (BitVec.toNat_inj (y := 0#4))

/-- When the command completes, the host goes on behind the block. -/
theorem Reaches.doCheck_of_completed (h : Reaches s p k u) (hcode : DoCheckAt p k i e exit j) (hv : u.host.varsWf = true)
    (hx : exec i (u.issued i) = .next v) (h0 : v.errcode = 0) :
    Reaches s p (k + 4) (v.setHost ((u.host.put e 0).jump (k + 4))) := by
  obtain ⟨hread, hholds⟩ := h.doRead hcode hv hx
  have hend := hread.ifGoto_of_not_holds hcode.test (hholds.trans (decide_eq_false (not_not.2 h0)))
  have hhost : v.host = u.host.advance := (exec_ends hx).host
  have hpc : u.host.pc = k := h.place.pc
  convert hend using 1
  simp only [State.hostNext, State.hostTake, State.setHost, hhost, h0, ← hpc]
  rfl

/-- When the command raises, the host goes to the error exit. -/
theorem Reaches.doCheck_of_raised (h : Reaches s p k u) (hcode : DoCheckAt p k i e exit j) (hv : u.host.varsWf = true)
    (hx : exec i (u.issued i) = .next v) (h0 : v.errcode ≠ 0) : ∃ w, Reaches s p j w := by
  obtain ⟨hread, hholds⟩ := h.doRead hcode hv hx
  exact ⟨_, hread.ifGoto_of_holds hcode.test hcode.label (hholds.trans (decide_eq_true h0))⟩

/-- An accepting run through the block has completed the command, when the error exit does not accept. -/
theorem State.At.onAccept_doCheck (h : s.At p k) (hcode : DoCheckAt p k i e exit j) (hv : s.host.varsWf = true)
    (hexit : ∀ w, w.At p j → OnAccept P w)
    (hnext : ∀ v, exec i (s.issued i) = .next v → v.errcode = 0 →
      (v.setHost ((s.host.put e 0).jump (k + 4))).At p (k + 4) → OnAccept P (v.setHost ((s.host.put e 0).jump (k + 4)))) :
    OnAccept P s := by
  obtain ⟨hissue, hexec⟩ := h.goes_issued hcode.cmd hcode.wait
  rcases exec_stops i (s.issued i) with ⟨v, hx⟩ | hx
  · by_cases h0 : v.errcode = 0
    · have hend := h.reaches.doCheck_of_completed hcode hv hx h0
      exact hend.path.onAccept (hnext v hx h0 hend.place)
    · obtain ⟨w, hw⟩ := h.reaches.doCheck_of_raised hcode hv hx h0
      exact hw.path.onAccept (hexit w hw.place)
  · refine hissue.onAccept fun w hw => ?_
    cases hw
    exact hexec.onAccept fun w hw => by cases hx.symm.trans hw

end Sys2Proof.Machine
end

section
/-! PARSE and SERIALIZE (43_stream.md R99 to R102): the list PARSE accepts describes frames that follow each other from the
signature to the end of the input, and SERIALIZE copies the signature and each of them to the same place in OBUF. -/

namespace Sys2Proof.Machine

/-! ### The frames a list describes -/

/-- The list describes frames that follow each other in m from offset p to offset q (R94, R100). -/
inductive Frames (m : Memory) : Nat → List Descriptor → Nat → Prop where
  | nil (p : Nat) : Frames m p [] p
  | cons {p q : Nat} {len type crc : Word} {d : List Byte} {ds : List Descriptor} (hlen : d.length = len.toNat)
      (hlet : letters type = true) (hm : m.Holds p (frameBytes len type d crc)) (hds : Frames m (p + 12 + len.toNat) ds q) :
      Frames m p (⟨len.toNat, type.toNat, p + 8, crc.toNat⟩ :: ds) q

theorem Frames.append {m : Memory} {p q r : Nat} {ds es : List Descriptor} (h : Frames m p ds q) (h' : Frames m q es r) :
    Frames m p (ds ++ es) r := by
  induction h with
  | nil => exact h'
  | cons hlen hlet hm _ ih => exact .cons hlen hlet hm (ih h')

theorem Frames.le {m : Memory} {p q : Nat} {ds : List Descriptor} (h : Frames m p ds q) : p ≤ q := by
  induction h with
  | nil => exact Nat.le_refl _
  | cons _ _ _ _ ih => omega

/-- The bytes up to N are a stream: the signature, then the frames the list describes. -/
structure IsStream (m : Memory) (ds : List Descriptor) (N : Nat) : Prop where
  signature : m.Holds 0 signature
  frames : Frames m 8 ds N

/-! ### What both procedures leave of the input -/

/-- The parameters, IBUF and IN_LEN are the same in both states. -/
structure KeepsInput (s t : State) : Prop where
  cfg : t.cfg = s.cfg
  ibuf : t.ibuf = s.ibuf
  inLen : t.inLen = s.inLen

theorem KeepsInput.trans {s t u : State} (h : KeepsInput s t) (h' : KeepsInput t u) : KeepsInput s u :=
  ⟨h'.cfg.trans h.cfg, h'.ibuf.trans h.ibuf, h'.inLen.trans h.inLen⟩

variable {s₀ s t u w : State} {h : HostAgent} {q : Nat} {len type crc : Word} {d : List Byte} {done rest : List Descriptor}

theorem KeepsInput.setHost (hk : KeepsInput s t) (h : HostAgent) : KeepsInput s (t.setHost h) := ⟨hk.cfg, hk.ibuf, hk.inLen⟩

/-! ### PARSE

Its positions: 0 the signature check, 4 `loop`, 7 the decode, 11 the reads of the descriptor, 17 `done`, 19 the error exit. -/

/-- What PARSE has established at `loop`. -/
structure Parsing (s₀ s : State) : Prop where
  place : s.At parseProgram 4
  keeps : KeepsInput s₀ s
  inside : s₀.inLen.toNat ≤ s₀.cfg.ibufSize
  vars : s.host.varsWf = true
  stream : IsStream s₀.ibuf s.host.list s.inPtr.toNat

/-- What PARSE has established when it accepts. -/
structure Parsed (s₀ t : State) : Prop where
  idle : t.phase = .idle
  noReset : .reset ∉ t.turns
  keeps : KeepsInput s₀ t
  inside : s₀.inLen.toNat ≤ s₀.cfg.ibufSize
  vars : t.host.varsWf = true
  stream : IsStream s₀.ibuf t.host.list s₀.inLen.toNat

/-- The error exit discards the list and fails. -/
theorem onAccept_parseExit {P : State → Prop} (hw : w.At parseProgram 19) : OnAccept P w := by
  have hclear := (hw.reaches.label (l := 2) rfl).clearList rfl
  have hfail := hclear.path.tail (hclear.place.goes (st := .fail (.var vE)) rfl)
  exact Path.onAccept hfail (onAccept_of_stopped hw.idle (by simp) fun h => by cases h)

/-- The four reads and the append record the current chunk. -/
theorem Reaches.record (hu : Reaches s parseProgram 11 u) (hv : u.host.varsWf = true) :
    ∃ h : HostAgent, Reaches s parseProgram 4 (u.setHost h) ∧ h.varsWf = true ∧ h.list = u.host.list ++ [u.descriptor] := by
  have hlen := hu.rd (r := .chkLen) (x := vL) rfl
  have htype := hlen.rd (r := .chkType) (x := vT) rfl
  have hdofs := htype.rd (r := .chkDofs) (x := vO) rfl
  have hcrc := hdofs.rd (r := .chkCrc) (x := vC) rfl
  have hloop := (hcrc.append (xl := vL) (xt := vT) (xo := vO) (xc := vC) rfl).goto (l := 0) (j := 4) rfl rfl
  simp only [State.hostTake, State.setHost_setHost, State.setHost_host, State.readReg, HostAgent.put_advance] at hloop
  exact ⟨_, hloop, HostAgent.varsWf_load hv u.descriptor,
    congrArg (u.host.list ++ [·]) (HostAgent.descriptor_load hv u.descriptor)⟩

theorem testBit_status_eos (s : State) : (s.readReg .status).toNat.testBit 2 = decide (s.inPtr = s.inLen) := by
  obtain ⟨-, -, h, -⟩ := statusWord_bits s.busy s.errFlag s.eosFlag s.overrun
  exact h

/-- `loop` goes to `done` when the input is exhausted, and else into the body. -/
theorem Parsing.test (hs : Parsing s₀ s) : ∃ a : HostAgent, a.varsWf = true ∧ a.list = s.host.list ∧
    Reaches s parseProgram (if s.inPtr = s.inLen then 17 else 7) (s.setHost a) := by
  have hread := (hs.place.reaches.label (l := 0) rfl).rd (r := .status) (x := vSt) rfl
  simp only [State.hostNext, State.hostTake, State.setHost_setHost, State.setHost_host, State.readReg_setHost,
    HostAgent.put_advance] at hread
  have hv := HostAgent.varsWf_put hs.vars vSt (s.readReg .status).toNat
  have hholds : (s.host.put vSt (s.readReg .status).toNat).holds (.eq (.bit (.var vSt) 2) (.lit 1))
      = decide (s.inPtr = s.inLen) := by
    simp [HostAgent.holds, HostAgent.eval, HostAgent.get_put_same hs.vars, testBit_status_eos]
  by_cases h : s.inPtr = s.inLen
  · rw [if_pos h]
    have hdone := hread.ifGoto_of_holds (l := 1) (j := 17) rfl rfl (hholds.trans (decide_eq_true h))
    refine ⟨_, ?_, ?_, hdone⟩
    · exact hv
    · rfl
  · rw [if_neg h]
    have hbody := hread.ifGoto_of_not_holds (l := 1) rfl (hholds.trans (decide_eq_false h))
    refine ⟨_, ?_, ?_, hbody⟩
    · exact hv
    · rfl

/-- A decoded frame and the descriptor of it that the block then holds. -/
theorem GoodFrame.frames (hg : GoodFrame s len type d) :
    Frames s.ibuf s.inPtr.toNat [(s.decoded len type d).descriptor] (s.decoded len type d).inPtr.toNat := by
  have hdescriptor : (s.decoded len type d).descriptor
      = ⟨len.toNat, type.toNat, s.inPtr.toNat + 8, (crcChunk type d).toNat⟩ := by
    rw [← hg.decoded_chkDofs]; rfl
  rw [hdescriptor, hg.decoded_inPtr]
  exact .cons hg.length hg.typeLetters hg.holds (.nil _)

/-- A decode leaves less of the input (R100). -/
theorem GoodFrame.decoded_remaining_lt (hg : GoodFrame s len type d) :
    (s.decoded len type d).inLen.toNat - (s.decoded len type d).inPtr.toNat < s.inLen.toNat - s.inPtr.toNat := by
  have hlen : (s.decoded len type d).inLen = s.inLen := rfl
  have := hg.fits
  rw [hg.decoded_inPtr, hlen]
  omega

theorem IsStream.append {m : Memory} {p q : Nat} {ds es : List Descriptor} (h : IsStream m ds p) (h' : Frames m p es q) :
    IsStream m (ds ++ es) q := ⟨h.signature, h.frames.append h'⟩

theorem parse_sigCheckAt : DoCheckAt parseProgram 0 .sigCheck vE 2 19 := ⟨rfl, rfl, rfl, rfl, rfl⟩

theorem parse_decodeAt : DoCheckAt parseProgram 7 .chunkDecode vE 2 19 := ⟨rfl, rfl, rfl, rfl, rfl⟩

/-- At `done` PARSE accepts. -/
theorem onAccept_parseDone (hs : Parsing s₀ s) (hN : s.inPtr = s.inLen) {a : HostAgent} (hv : a.varsWf = true)
    (hl : a.list = s.host.list) (hu : (s.setHost a).At parseProgram 17) : OnAccept (Parsed s₀) (s.setHost a) := by
  have haccept := (hu.reaches.label (l := 1) rfl).accept rfl
  refine Path.onAccept haccept (onAccept_of_stopped hs.place.idle (by simp) fun _ ts d hts => ?_)
  refine ⟨hs.place.idle, hts, hs.keeps.trans ⟨rfl, rfl, rfl⟩, hs.inside, hv, ?_⟩
  have hstream := hs.stream
  rw [← hl, hN, hs.keeps.inLen] at hstream
  exact hstream

/-- A completed decode adds its frame to the stream and its descriptor to the list. -/
theorem Parsing.next (hs : Parsing s₀ s) (hk : KeepsInput s t) (hp : t.inPtr = s.inPtr)
    (hg : GoodFrame t len type d) (hv : h.varsWf = true) (hl : h.list = s.host.list ++ [(t.decoded len type d).descriptor])
    (hu : ((t.decoded len type d).setHost h).At parseProgram 4) : Parsing s₀ ((t.decoded len type d).setHost h) := by
  have hk := hs.keeps.trans hk
  refine ⟨hu, hk.trans ⟨rfl, rfl, rfl⟩, hs.inside, hv, ?_⟩
  have hframe := hg.frames
  rw [hk.ibuf, hp] at hframe
  exact hl ▸ hs.stream.append hframe

/-- By induction on what is left of the input at `loop`. -/
theorem Parsing.onAccept {s : State} (hs : Parsing s₀ s) : OnAccept (Parsed s₀) s := by
  obtain ⟨a, hv, hl, hreach⟩ := hs.test
  split at hreach
  · exact hreach.path.onAccept (onAccept_parseDone hs ‹_› hv hl hreach.place)
  · refine hreach.path.onAccept ?_
    refine hreach.place.onAccept_doCheck parse_decodeAt hv (fun w => onAccept_parseExit) fun v hx h0 hat => ?_
    obtain ⟨len, type, d, hg, rfl⟩ := goodFrame_of_completed hx h0
    obtain ⟨b, hloop, hb, hbl⟩ := hat.reaches.record (HostAgent.varsWf_put hv vE 0)
    have hnext := hs.next (t := (s.setHost a).issued .chunkDecode) ⟨rfl, rfl, rfl⟩ rfl hg hb (hl ▸ hbl) hloop.place
    exact hloop.path.onAccept (Parsing.onAccept hnext)
termination_by s.inLen.toNat - s.inPtr.toNat
decreasing_by exact hg.decoded_remaining_lt

/-- PARSE, with an empty list, accepts with a list that describes the input. -/
theorem parse_onAccept (hs : s₀.At parseProgram 0) (hv : s₀.host.varsWf = true) (hl : s₀.host.list = []) :
    OnAccept (Parsed s₀) s₀ := by
  refine hs.onAccept_doCheck parse_sigCheckAt hv (fun w => onAccept_parseExit) fun v hx h0 hat => ?_
  cases exec_ends hx with
  | raised he => exact absurd h0 (errsOf_code he).1
  | sigCheck hn h8 hr =>
    refine Parsing.onAccept ⟨hat, ⟨rfl, rfl, rfl⟩, hn, HostAgent.varsWf_put hv vE 0, ?_⟩
    refine ⟨(Memory.readRange_iff_holds.1 hr).2, ?_⟩
    show Frames s₀.ibuf 8 s₀.host.list 8
    rw [hl]
    exact .nil 8

/-! ### SERIALIZE

Its positions: 1 the signature, 6 `loop`, 12 the encode, 18 `done`, 21 the error exit. -/

/-- OUT_PTR is q, and OBUF holds a copy of the input up to there. -/
structure Copied (s₀ s : State) (q : Nat) : Prop where
  keeps : KeepsInput s₀ s
  outPtr : s.outPtr.toNat = q
  bytes : ∀ a, a < q → s.obuf.read a = s₀.ibuf.read a

theorem Copied.setHost (hc : Copied s₀ s q) (h : HostAgent) : Copied s₀ (s.setHost h) q :=
  ⟨hc.keeps.setHost h, hc.outPtr, hc.bytes⟩

theorem Copied.issued (hc : Copied s₀ s q) (i : Instr) : Copied s₀ (s.issued i) q :=
  ⟨hc.keeps.trans ⟨rfl, rfl, rfl⟩, hc.outPtr, hc.bytes⟩

theorem Copied.loadDescriptor (hc : Copied s₀ s q) (d : Descriptor) : Copied s₀ (s.loadDescriptor d) q :=
  ⟨hc.keeps.trans ⟨rfl, rfl, rfl⟩, hc.outPtr, hc.bytes⟩

/-- Emitting what the input holds at OUT_PTR extends the copy. -/
theorem Copied.emit {bs : List Byte} (hc : Copied s₀ s q) (hm : s₀.ibuf.Holds q bs)
    (hN : q + bs.length ≤ s₀.inLen.toNat) : Copied s₀ (s.emit bs).complete (q + bs.length) := by
  obtain ⟨hk, rfl, hbytes⟩ := hc
  refine ⟨hk.trans ⟨rfl, rfl, rfl⟩, toNat_ofNat_of_le hN, fun a ha => ?_⟩
  show (s.obuf.writeBytes s.outPtr.toNat bs).read a = _
  by_cases hlt : a < s.outPtr.toNat
  · rw [Memory.read_writeBytes_outside _ _ _ _ (.inl hlt), hbytes a hlt]
  · obtain ⟨i, rfl⟩ := Nat.exists_eq_add_of_le (Nat.le_of_not_lt hlt)
    have hi : i < bs.length := by omega
    rw [Memory.read_writeBytes_inside _ _ _ _ hi, hm i hi]

/-- What SERIALIZE has established at `loop`, with the descriptors done and those to come. -/
structure Serializing (s₀ s : State) (q : Nat) (done rest : List Descriptor) : Prop where
  place : s.At serializeProgram 6
  copied : Copied s₀ s q
  vars : s.host.varsWf = true
  list : s.host.list = done ++ rest
  index : s.host.get vI = done.length
  frames : Frames s₀.ibuf q rest s₀.inLen.toNat

/-- What SERIALIZE has established when it accepts. -/
structure Serialized (s₀ u : State) : Prop where
  idle : u.phase = .idle
  accepted : u.host.status = .accepted
  copied : Copied s₀ u s₀.inLen.toNat

theorem serialize_sigEmitAt : DoCheckAt serializeProgram 1 .sigEmit vE 2 21 := ⟨rfl, rfl, rfl, rfl, rfl⟩

theorem serialize_encodeAt : DoCheckAt serializeProgram 12 .chunkEncode vE 2 21 := ⟨rfl, rfl, rfl, rfl, rfl⟩

/-- `loop` takes the next descriptor into the block. -/
theorem Serializing.takes {d : Descriptor} (hs : Serializing s₀ s q done (d :: rest)) :
    ∃ a : HostAgent, a.varsWf = true ∧ a.list = done ++ d :: rest ∧ a.get vI = done.length ∧
      Reaches s serializeProgram 12 ((s.loadDescriptor d).setHost a) := by
  have hnext : s.host.list[s.host.get vI]? = some d := by rw [hs.list, hs.index]; simp
  have hload := (hs.place.reaches.label (l := 0) rfl).nextDesc_of_some (a := .var vI) (l := 1) rfl hnext
  have hlen := hload.wr (r := .chkLen) (a := .var vL) rfl rfl
  have htype := hlen.wr (r := .chkType) (a := .var vT) rfl rfl
  have hdofs := htype.wr (r := .chkDofs) (a := .var vO) rfl rfl
  have hregs := hdofs.wr (r := .chkCrc) (a := .var vC) rfl rfl
  simp only [State.hostNext, State.setHost_setHost, State.setHost_host, State.writeReg_setHost, HostAgent.eval,
    HostAgent.get_advance] at hregs
  have hblock : Reaches s serializeProgram 12 ((s.loadDescriptor (s.host.advance.load d).descriptor).setHost _) := hregs
  rw [HostAgent.descriptor_load (a := s.host.advance) hs.vars] at hblock
  refine ⟨_, ?_, ?_, ?_, hblock⟩
  · exact HostAgent.varsWf_load (a := s.host.advance) hs.vars d
  · exact hs.list
  · exact (HostAgent.get_load_vI s.host.advance d).trans hs.index

/-- At `done` SERIALIZE accepts. -/
theorem Serializing.accepts (hs : Serializing s₀ s q done []) : ∃ u, Path s u ∧ Serialized s₀ u := by
  have hnone : s.host.list[s.host.get vI]? = none := by rw [hs.list, hs.index]; simp
  have hdone := (hs.place.reaches.label (l := 0) rfl).nextDesc_of_none (a := .var vI) (l := 1) (j := 18) rfl hnone rfl
  have haccept := ((hdone.label (l := 1) rfl).rd (r := .outPtr) (x := vN) rfl).accept rfl
  simp only [State.hostTake, State.hostNext, State.setHost_setHost, State.setHost_host] at haccept
  refine ⟨_, haccept, ?_, rfl, ?_⟩
  · simpa using hs.place.idle
  · have hq : q = s₀.inLen.toNat := by
      cases hs.frames
      rfl
    exact hq ▸ hs.copied.setHost _

/-- The registers hold what the descriptor of a frame of the input says. -/
theorem descriptor_loadDescriptor (s : State) {o : Nat} {N : Word} (ho : o ≤ N.toNat) (len type crc : Word) :
    (s.loadDescriptor ⟨len.toNat, type.toNat, o, crc.toNat⟩).descriptor = ⟨len.toNat, type.toNat, o, crc.toNat⟩ := by
  have hword (v : Word) : (BitVec.ofNat 32 v.toNat).toNat = v.toNat := toNat_ofNat_of_le (Nat.le_refl _)
  simp only [State.descriptor, State.loadDescriptor, State.writeReg, hword, toNat_ofNat_of_le ho]

section Fits
variable (hin : s₀.inLen.toNat ≤ s₀.cfg.ibufSize) (hout : s₀.inLen.toNat ≤ s₀.cfg.obufSize)
include hin hout

/-- With the descriptor of a frame of the input in the block, and the copy as far as the frame, CHUNK_ENCODE copies the frame. -/
theorem Copied.exec_chunkEncode (hc : Copied s₀ s q) (hN : q + 12 + len.toNat ≤ s₀.inLen.toNat)
    (hd : d.length = len.toNat) (hlet : letters type = true) (hm : s₀.ibuf.Holds q (frameBytes len type d crc))
    (hs : s.descriptor = ⟨len.toNat, type.toNat, q + 8, crc.toNat⟩) :
    exec .chunkEncode s = .next (s.emit (frameBytes len type d crc)).complete ∧
      Copied s₀ (s.emit (frameBytes len type d crc)).complete (q + 12 + len.toNat) := by
  have hk := hc.keeps
  have hp := hc.outPtr
  injection hs with hlen htype hdofs hcrc
  obtain rfl := BitVec.toNat_inj.1 hlen
  obtain rfl := BitVec.toNat_inj.1 htype
  obtain rfl := BitVec.toNat_inj.1 hcrc
  have hl : (frameBytes s.chkLen s.chkType d s.chkCrc).length = 12 + s.chkLen.toNat := by rw [frameBytes_length, hd]
  obtain ⟨-, -, hdata, -⟩ := Memory.holds_frame.1 hm
  have hpayload : s.payload = some d := payload_eq_some.2 ⟨hd, by rwa [hk.ibuf, hdofs]⟩
  refine ⟨exec_chunkEncode_of_payload ?_ ?_ hlet hpayload, ?_⟩
  · rw [hk.cfg, hdofs]; omega
  · rw [hk.cfg, hp]; omega
  · rw [Nat.add_assoc, ← hl]
    exact hc.emit hm (by omega)

/-- One turn of the loop copies one frame. -/
theorem Serializing.next (hs : Serializing s₀ s q done (⟨len.toNat, type.toNat, q + 8, crc.toNat⟩ :: rest))
    (hd : d.length = len.toNat) (hlet : letters type = true) (hm : s₀.ibuf.Holds q (frameBytes len type d crc))
    (hrest : Frames s₀.ibuf (q + 12 + len.toNat) rest s₀.inLen.toNat) :
    ∃ u, Path s u ∧
      Serializing s₀ u (q + 12 + len.toNat) (done ++ [⟨len.toNat, type.toNat, q + 8, crc.toNat⟩]) rest := by
  obtain ⟨a, hv, hl, hidx, hreach⟩ := hs.takes
  have hle := hrest.le
  have hcopied := ((hs.copied.loadDescriptor ⟨len.toNat, type.toNat, q + 8, crc.toNat⟩).setHost a).issued .chunkEncode
  obtain ⟨hx, hcopied⟩ := hcopied.exec_chunkEncode hin hout hle hd hlet hm
    (descriptor_loadDescriptor s (N := s₀.inLen) (by omega) len type crc)
  have hcheck := hreach.doCheck_of_completed serialize_encodeAt hv hx rfl
  have hloop := (hcheck.set (x := vI) (a := .add (.var vI) (.lit 1)) rfl).goto (l := 0) (j := 6) rfl rfl
  simp only [State.hostTake, State.setHost_setHost, State.setHost_host] at hloop
  have hvE := HostAgent.varsWf_put hv vE 0
  refine ⟨_, hloop.path, hloop.place, hcopied.setHost _, ?_, ?_, ?_, hrest⟩
  · simpa using HostAgent.varsWf_put hvE vI _
  · simpa using hl
  · simp [HostAgent.eval, HostAgent.get_put_same hvE, HostAgent.get_put_ne (show vI ≠ vE by decide), hidx]

/-- By induction on the descriptors to come. -/
theorem Serializing.path (hs : Serializing s₀ s q done rest) : ∃ u, Path s u ∧ Serialized s₀ u := by
  induction rest generalizing s q done with
  | nil => exact hs.accepts
  | cons d rest ih =>
    have hf := hs.frames
    cases hf with
    | cons hlen hlet hm hds =>
      obtain ⟨u, hu, hnext⟩ := hs.next hin hout hlen hlet hm hds
      obtain ⟨w, hw, hend⟩ := ih hnext
      exact ⟨w, hu.trans hw, hend⟩

end Fits

/-- SERIALIZE, on a list that describes the input, comes to accept with a copy of the input. -/
theorem serialize_path (hs : s.At serializeProgram 0) (hv : s.host.varsWf = true) (hin : s.inLen.toNat ≤ s.cfg.ibufSize)
    (hout : s.inLen.toNat ≤ s.cfg.obufSize) (hstream : IsStream s.ibuf s.host.list s.inLen.toNat) :
    ∃ u, Path s u ∧ Serialized s u := by
  have hstart := hs.reaches.wr (r := .outPtr) (a := .lit 0) rfl rfl
  have h8 := hstream.frames.le
  have hcopied : Copied s ((s.writeReg .outPtr 0).hostNext.issued .sigEmit) 0 :=
    ⟨⟨rfl, rfl, rfl⟩, rfl, fun a ha => absurd ha (Nat.not_lt_zero a)⟩
  have hx := exec_sigEmit_of_fits (s := (s.writeReg .outPtr 0).hostNext.issued .sigEmit) (Nat.le_trans h8 hout)
  have hcheck := hstart.doCheck_of_completed serialize_sigEmitAt hv hx rfl
  have hloop := hcheck.set (x := vI) (a := .lit 0) rfl
  have hvE := HostAgent.varsWf_put hv vE 0
  have hserializing : Serializing s _ 8 [] s.host.list :=
    ⟨hloop.place, (hcopied.emit hstream.signature h8).setHost _, HostAgent.varsWf_put hvE vI 0, rfl,
      HostAgent.get_put_same hvE vI 0, hstream.frames⟩
  obtain ⟨u, hu, hend⟩ := hserializing.path hin hout
  exact ⟨u, hloop.path.trans hu, hend⟩

/-- Settles O54: PARSE accepts with a list that describes the input (`parse_onAccept`), and SERIALIZE copies what its list
describes (`serialize_path`); both hold under every plan of turns, what PARSE leaves of the plan included. -/
theorem streamRoundTrip : Obligations.StreamRoundTrip := by
  intro s t k hidle hreset hhost hout hrun hacc
  have hplace : s.At parseProgram 0 := ⟨hidle, by rw [hhost]; rfl, by rw [hhost], by rw [hhost]; rfl⟩
  have ht := parse_onAccept hplace (by rw [hhost]; rfl) (by rw [hhost]; rfl) k s.turns s.draws t hreset hrun hacc
  obtain ⟨hcfg, hibuf, hlen⟩ := ht.keeps
  obtain ⟨u, hpath, hu⟩ := serialize_path
    (s := { t with host := { t.host with prog := serializeProgram, pc := 0, status := .running } })
    ⟨ht.idle, rfl, rfl, rfl⟩ ht.vars (by simpa [hcfg, hlen] using ht.inside) (by simpa [hcfg, hlen] using hout)
    (by simpa [hibuf, hlen] using ht.stream)
  obtain ⟨n, ts, d, -, hn⟩ := Path.runs hpath t.turns t.draws ht.noReset
  refine ⟨n, u.replan ts d, hn, hu.accepted, ?_, ?_, hu.copied.keeps.ibuf.trans hibuf, fun a ha => ?_⟩
  · simp [runEnded, HostAgent.stopped, hu.accepted, busy_of_idle hu.idle]
  · exact (BitVec.toNat_inj.1 hu.copied.outPtr).trans hlen
  · exact (hu.copied.bytes a (hlen ▸ ha)).trans (congrArg (Memory.read · a) hibuf)

end Sys2Proof.Machine
end

section
/-! Errors of the commands (60_exceptions.md R105, R110, R119, R120): what a command leaves when it raises, and the codes it can end with. -/

namespace Sys2Proof.Machine

/-- Codes 10 to 15 stand for no error (R105). -/
theorem Err.toNat_code_le_nine (e : Err) : e.code.toNat ≤ 9 := by cases e <;> decide

/-- Settles O30: a command that ends with a code other than 0 has raised (`Ends.completed_or_raised`), and so has the engine's step
(`engineStepCompletesOrRaises`); a raise is the update the statement writes. -/
theorem raiseWritesOnlyTheCode : Obligations.RaiseWritesOnlyTheCode := by
  refine ⟨fun i s t h hne => ?_, fun s t rest he h hne => ?_⟩
  · obtain ⟨e, -, rfl⟩ := (exec_ends h).completed_or_raised.resolve_left hne
    rfl
  · obtain ⟨-, -, hend⟩ := engineStepCompletesOrRaises s t rest he h
    obtain ⟨e, -, rfl⟩ := hend.resolve_left hne
    rfl

/-- Settles O31: code 0 is the end of a completion, and a raise writes the code of a listed error, none of which is NoSuchChunk. -/
theorem codesOfEachCommand : Obligations.CodesOfEachCommand := by
  intro i s t h
  obtain h0 | ⟨e, he, rfl⟩ := (exec_ends h).completed_or_raised
  · rw [h0]
    exact ⟨.inl rfl, by decide, by decide⟩
  · exact ⟨.inr ⟨e, he, rfl⟩, (errsOf_code he).2, e.toNat_code_le_nine⟩

end Sys2Proof.Machine
end

section
/-! Host accesses while a command is in progress (70_reset_and_hazards.md R135 to R137): which reads are exact, which are free, and what
becomes of a buffer access. -/

namespace Sys2Proof.Machine

variable {s : State} {i : Instr} {r : RegName} {buf : Buffer} {a : Nat} {b : Byte}

/-! ### Register reads -/

theorem pendWrites_of_ok {w : Word} (h : decode w = .ok i) (r : RegName) : pendWrites w r = writtenBy i r := by
  simp only [pendWrites, decode?_of_ok h]

theorem pendWrites_of_error {w : Word} {e : DecodeError} (h : decode w = .error e) (r : RegName) :
    pendWrites w r = (decide (r = .errcode) || decide (r = .status)) := by
  simp only [pendWrites, decode?_of_error h]

/-- An illegal word never writes IN_PTR, so EOS is exact unless a legal one may (log entry 11). -/
theorem pendWrites_inPtr_eq_false {w : Word} (h : ∀ i, decode w = .ok i → writtenBy i .inPtr = false) :
    pendWrites w .inPtr = false := by
  cases hd : decode w with
  | ok i => rw [pendWrites_of_ok hd, h i hd]
  | error e => rw [pendWrites_of_error hd]; rfl

theorem readBusy_of_ne_status (s : State) (hr : r ≠ .status) :
    s.readBusy r = if pendWrites s.pend r then (Config.drawWord s.draws, s.drew) else (s.readReg r, s) := by
  cases r with
  | status => exact absurd rfl hr
  | cmd | errcode | tstat | inLen | inPtr | outPtr | chkLen | chkType | chkDofs | chkCrc | crcState | crcValue => rfl

theorem hostRead_busy (hp : s.phase = .run) (r : RegName) : hostRead r.offset 32 s = .next (s.readBusy r) := by
  rw [hostRead_reg, if_pos (busy_of_run hp)]

theorem hostRead_busy_exact (hp : s.phase = .run) (hr : r ≠ .status) (hw : pendWrites s.pend r = false) :
    hostRead r.offset 32 s = .next (s.readReg r, s) := by
  rw [hostRead_busy hp, readBusy_of_ne_status s hr, hw]; rfl

theorem hostRead_busy_free (hp : s.phase = .run) (hr : r ≠ .status) (hw : pendWrites s.pend r = true) :
    hostRead r.offset 32 s = .next (Config.drawWord s.draws, s.drew) := by
  rw [hostRead_busy hp, readBusy_of_ne_status s hr, hw]; rfl

/-- STATUS while busy, field by field (log entry 11). -/
theorem hostRead_busy_status (hp : s.phase = .run) : ∃ v, hostRead RegName.status.offset 32 s = .next (v, s.drew) ∧
    v.getLsbD 0 = true ∧ v.getLsbD 1 = (Config.drawWord s.draws).getLsbD 1 ∧
    v.getLsbD 2 = (if pendWrites s.pend .inPtr then (Config.drawWord s.draws).getLsbD 2 else s.eosFlag) ∧
    v.getLsbD 3 = s.overrun :=
  ⟨_, hostRead_busy hp .status, statusWord_bits _ _ _ _⟩

/-! ### Buffer reads and writes -/

/-- A written byte reads exactly wherever the command in progress, if there is one, does not write. -/
theorem hostReadByte_exact (ha : a < s.bufSize buf) (hb : (s.bufOf buf).read a = some b)
    (hout : buf = .obuf → s.phase = .run → inOutputInterval s a = false) : hostReadByte buf a s = .next (b, s) := by
  have hfree : (decide (buf = .obuf) && s.busy && inOutputInterval s a) = false := by
    by_cases h : buf = .obuf ∧ s.phase = .run
    · rw [hout h.1 h.2, Bool.and_false]
    · simpa [State.busy] using fun ho hp => absurd ⟨ho, hp⟩ h
  simp only [hostReadByte, if_pos ha, hfree, Bool.false_eq_true, if_false, hb]

/-- A byte the command in progress may write reads as a free value, written before or not (log entry 12). -/
theorem hostReadByte_free (ha : a < s.cfg.obufSize) (hp : s.phase = .run) (hin : inOutputInterval s a = true) :
    hostReadByte .obuf a s = .next (Config.drawByte s.draws, s.drew) := by
  simp [hostReadByte, State.bufSize, ha, busy_of_run hp, hin]

theorem hostReadByte_range (ha : s.bufSize buf ≤ a) : hostReadByte buf a s = .fault .hostBufRange :=
  if_neg (Nat.not_lt.2 ha)

theorem hostWriteByte_busy (hp : s.phase = .run) (buf : Buffer) (a : Nat) (b : Byte) :
    hostWriteByte buf a b s = .fault .hostBufWriteBusy := if_pos (busy_of_run hp)

theorem hostWriteByte_idle (hi : s.phase = .idle) (ha : a < s.bufSize buf) (b : Byte) :
    hostWriteByte buf a b s = .next (s.setByte buf a b) := by
  simp [hostWriteByte, busy_of_idle hi, ha]

theorem hostWriteByte_idle_range (hi : s.phase = .idle) (ha : s.bufSize buf ≤ a) (b : Byte) :
    hostWriteByte buf a b s = .fault .hostBufRange := by
  simp [hostWriteByte, busy_of_idle hi, Nat.not_lt.2 ha]

@[simp] theorem setByte_bufSize (s : State) (buf buf' : Buffer) (a : Nat) (b : Byte) :
    (s.setByte buf a b).bufSize buf' = s.bufSize buf' := by
  cases buf' <;> simp [State.bufSize]

@[simp] theorem setByte_bufOf_same (s : State) (buf : Buffer) (a : Nat) (b : Byte) :
    (s.setByte buf a b).bufOf buf = (s.bufOf buf).write a b := by cases buf <;> rfl

/-- The buffers are stored apart from each other. -/
theorem setByte_bufOf_ne (s : State) {buf buf' : Buffer} (h : buf' ≠ buf) (a : Nat) (b : Byte) :
    (s.setByte buf a b).bufOf buf' = s.bufOf buf' := by
  cases buf with
  | ibuf =>
    cases buf' with
    | ibuf => exact absurd rfl h
    | obuf => rfl
  | obuf =>
    cases buf' with
    | ibuf => rfl
    | obuf => exact absurd rfl h

@[simp] theorem setByte_readReg (s : State) (buf : Buffer) (a : Nat) (b : Byte) (r : RegName) :
    (s.setByte buf a b).readReg r = s.readReg r := by cases buf <;> cases r <;> rfl

/-! ### The obligations on accesses while busy -/

/-- Settles O42: a register outside `pendWrites` reads exactly, STATUS field by field, and a written byte outside the output interval. -/
theorem busyReadsThatAreExact : Obligations.BusyReadsThatAreExact := by
  refine ⟨fun s i r hp hd hw => ?_, fun s e r hp hd he hs => ?_, fun s hp => ?_, fun s a b hp ha hb => ?_,
    fun s a b hp ha hb hout => ?_⟩
  · have hr : r ≠ .status := by rintro rfl; cases hw
    exact hostRead_busy_exact hp hr ((pendWrites_of_ok hd r).trans hw)
  · exact hostRead_busy_exact hp hs (by simp [pendWrites_of_error hd, he, hs])
  · obtain ⟨v, hv, hbusy, -, heos, hover⟩ := hostRead_busy_status hp
    refine ⟨v, _, hv, hbusy, hover, rfl, fun hw => ?_⟩
    rw [heos, pendWrites_inPtr_eq_false hw]; rfl
  · exact hostReadByte_exact (buf := .ibuf) ha hb nofun
  · exact hostReadByte_exact (buf := .obuf) ha hb fun _ _ => not_inOutputInterval hout

/-- Settles O43: a register in `pendWrites` and a byte in the output interval read as the draw, as do the fields of STATUS that follow. -/
theorem busyReadOfWrittenRegisterIsFree : Obligations.BusyReadOfWrittenRegisterIsFree := by
  refine ⟨fun s i r hp hd hr hw => hostRead_busy_free hp hr ((pendWrites_of_ok hd r).trans hw),
    fun s e hp hd => hostRead_busy_free (r := .errcode) hp (by decide) (pendWrites_of_error hd _), fun s hp => ?_,
    fun s i a hp hd ha hl hu => ?_⟩
  · obtain ⟨v, hv, -, herr, heos, -⟩ := hostRead_busy_status hp
    refine ⟨v, hv, herr, fun i hd hw => ?_⟩
    rw [heos, pendWrites_of_ok hd, hw, if_pos rfl]
  · rw [← outputBytes_of_ok hd] at hu
    exact hostReadByte_free ha hp (by simp [inOutputInterval, hl, hu])

/-- Settles O44: the busy check comes first, then the range check, and what passes both is `State.setByte`. -/
theorem hostBufferWrites : Obligations.HostBufferWrites := by
  refine ⟨fun s buf a b hp => hostWriteByte_busy hp buf a b, fun s buf a b hi ha => ?_,
    fun s buf a b ha => ⟨hostReadByte_range ha, fun hi => hostWriteByte_idle_range hi ha b⟩⟩
  have hidle : (s.setByte buf a b).phase ≠ .run := by simp [hi]
  refine ⟨s.setByte buf a b, hostWriteByte_idle hi ha b, ?_, fun c hc => ?_, fun buf' h => setByte_bufOf_ne s h a b,
    setByte_readReg s buf a b, ?_, ?_⟩
  · exact hostReadByte_exact (by simpa using ha) (by simp [Memory.read_write_same]) fun _ hp => absurd hp hidle
  · rw [setByte_bufOf_same, Memory.read_write_ne hc]
  · rintro rfl; rfl
  · rintro rfl; rfl

end Sys2Proof.Machine
end

section
/-! Reset (70_reset_and_hazards.md R129 to R131) and the end of a run (R141). -/

namespace Sys2Proof.Machine

variable {s : State}

theorem step_reset {rest : List Agent} (h : s.turns = .reset :: rest) : step s = .next (s.setTurns rest).resetInput := by
  simp [step, h]

/-- The registers of R19 right after reset. -/
theorem readReg_resetWith (c : Config) (r : RegName) : (State.resetWith c).readReg r
    = if r = .status then 0x00000004 else if r = .tstat then 0x0000000E else if r = .crcState then 0xFFFFFFFF else 0 := by
  cases r with
  | tstat => exact tstatOf_zero
  | crcValue => exact show ~~~ (0xFFFFFFFF : Word) = 0 by decide
  | cmd | status | errcode | inLen | inPtr | outPtr | chkLen | chkType | chkDofs | chkCrc | crcState => rfl

/-- A register does not see the host, the draw counter or the plan, so reset from any state gives it the value of `resetWith`. -/
theorem readReg_resetInput (s : State) (r : RegName) : s.resetInput.readReg r = (State.resetWith s.cfg).readReg r := by
  cases r <;> rfl

/-- A stopped host does nothing more (log entry 16). -/
theorem hostStep_stopped (h : s.host.stopped = true) : hostStep s = .next s := by
  simp only [HostAgent.stopped, Bool.or_eq_true, decide_eq_true_eq] at h
  simp only [hostStep]
  split
  · rename_i hs
    rw [List.getElem?_eq_none (h.resolve_left (absurd hs))]
  · rfl
  · rfl

theorem runEnded_iff : runEnded s = true ↔ s.host.stopped = true ∧ s.phase = .idle := by
  cases hp : s.phase <;> simp [runEnded, State.busy, hp]

@[simp] theorem runEnded_setTurns (s : State) (ts : List Agent) : runEnded (s.setTurns ts) = runEnded s := rfl

@[simp] theorem observe_setTurns (s : State) (ts : List Agent) : (s.setTurns ts).observe = s.observe := rfl

/-- Once the run has ended, a step uses up a planned turn and does nothing else. -/
theorem step_of_runEnded (h : runEnded s = true) (hr : ∀ rest, s.turns ≠ .reset :: rest) :
    step s = .next (s.setTurns s.turns.tail) := by
  obtain ⟨hstop, hidle⟩ := runEnded_iff.1 h
  simp only [step]
  split
  · rename_i ht
    rw [busy_of_idle hidle, ht, List.tail_nil, setTurns_nil ht]
    exact hostStep_stopped hstop
  · rename_i rest ht
    simp [engineStep, hidle, ht]
  · rename_i rest ht
    rw [ht]
    exact hostStep_stopped hstop
  · exact absurd ‹_› (hr _)

/-! ### The obligations on reset and the end -/

/-- Settles O46: the reset step answers `State.resetInput`, whose registers read as those of the reset state. -/
theorem resetFromAnyState : Obligations.ResetFromAnyState := by
  refine ⟨fun s rest h => ⟨_, step_reset h, rfl, ?_⟩, readReg_resetWith⟩
  simp only [readReg_resetInput, readReg_resetWith]
  exact ⟨rfl, rfl, rfl, rfl, rfl, rfl, rfl, rfl, rfl, rfl, rfl, rfl, fun _ => rfl, fun _ => rfl⟩

/-- Settles O53: the plan of turns is all the step changes (`step_of_runEnded`), and it is neither observed nor part of the end. -/
theorem endedRunKeepsItsObservation : Obligations.EndedRunKeepsItsObservation :=
  fun s h hr => ⟨_, step_of_runEnded h hr, (runEnded_setTurns s _).trans h, observe_setTurns s _⟩

end Sys2Proof.Machine
end

section
/-! Progress of a command (70_reset_and_hazards.md R140): until the engine's turn comes, the host can move no more of the block than
OVERRUN (R133, R134), and every host turn shortens the plan. -/

namespace Sys2Proof.Machine

variable {s u : State}

/-- What the host can make of a state while a command is in progress: OVERRUN, the host and the model's own fields may differ. -/
inductive Waited (s : State) : State → Prop where
  | mk (overrun : Bool) (host : HostAgent) (draws : Nat) (turns : List Agent) :
      Waited s { s with overrun := overrun, host := host, draws := draws, turns := turns }

theorem Waited.refl (s : State) : Waited s s := ⟨s.overrun, s.host, s.draws, s.turns⟩

theorem Waited.trans {t : State} (h : Waited s t) (h' : Waited t u) : Waited s u := by
  obtain ⟨⟩ := h
  obtain ⟨o, a, d, ts⟩ := h'
  exact ⟨o, a, d, ts⟩

theorem Waited.phase (h : Waited s u) : u.phase = s.phase := by cases h; rfl

theorem Waited.eq_update (h : Waited s u) :
    u = { s with overrun := u.overrun, host := u.host, draws := u.draws, turns := u.turns } := by cases h; rfl

/-! ### The host's turn while busy -/

/-- While busy a register write reaches OVERRUN alone, and a buffer write is not answered (R133, R134, R137). -/
theorem HostMove.waited {st : HStmt} (h : HostMove s st u) (hp : s.phase = .run) : Waited s u ∧ u.turns = s.turns := by
  cases h with
  | own a => exact ⟨⟨_, a, _, _⟩, rfl⟩
  | read a => exact ⟨⟨_, a, _, _⟩, rfl⟩
  | stored b hi ha a => exact absurd (hp.symm.trans hi) (by decide)
  | wrote r v hr a =>
    rcases hostWriteReg_cases s r v with hw | hw | ⟨-, -, hw⟩ | ⟨hi, -⟩ | ⟨hi, -⟩
    · rw [hw]; exact ⟨⟨_, a, _, _⟩, rfl⟩
    · rw [hw]; exact ⟨⟨false, a, _, _⟩, rfl⟩
    · rw [hw]; exact ⟨⟨true, a, _, _⟩, rfl⟩
    · exact absurd (hp.symm.trans hi) (by decide)
    · exact absurd (hp.symm.trans hi) (by decide)

theorem hostStep_waited (h : hostStep s = .next u) (hp : s.phase = .run) : Waited s u ∧ u.turns = s.turns := by
  simp only [hostStep] at h
  split at h
  · split at h
    · exact (execStmt_moves h).waited hp
    · cases h; exact ⟨.refl s, rfl⟩
  · cases h; exact ⟨.refl s, rfl⟩
  · cases h; exact ⟨.refl s, rfl⟩

/-! ### Up to the end of the wait -/

/-- The result is a stop, not a state. -/
def Stopped (o : Result) : Prop := (∃ f, o = .fault f) ∨ ∃ r, o = .refused r

theorem runSteps_stopped {k : Nat} (h : Stopped (step s)) : Stopped (runSteps (k + 1) s) := by
  obtain ⟨f, h⟩ | ⟨r, h⟩ := h
  · exact .inl ⟨f, by simp [runSteps, h]⟩
  · exact .inr ⟨r, by simp [runSteps, h]⟩

/-- The host's moves are over: the engine is next, or a planned reset is. -/
def WaitOver (u : State) : Prop := (∃ rest, engineMoves u rest) ∨ ∃ rest, u.turns = .reset :: rest

/-- The wait is over within the planned turns, unless a host statement stops the run. -/
theorem wait_ends (hp : s.phase = .run) : ∃ k ≤ s.turns.length,
    (∃ u, runSteps k s = .next u ∧ Waited s u ∧ WaitOver u ∧ u.turns ⊆ s.turns) ∨ Stopped (runSteps k s) := by
  induction hts : s.turns generalizing s with
  | nil => exact ⟨0, Nat.le_refl _, .inl ⟨s, rfl, .refl s, .inl ⟨[], hp, .inr ⟨hts, rfl⟩⟩, by simp [hts]⟩⟩
  | cons agent rest ih =>
    cases agent with
    | engine => exact ⟨0, Nat.zero_le _, .inl ⟨s, rfl, .refl s, .inl ⟨rest, hp, .inl hts⟩, by simp [hts]⟩⟩
    | reset => exact ⟨0, Nat.zero_le _, .inl ⟨s, rfl, .refl s, .inr ⟨rest, hts⟩, by simp [hts]⟩⟩
    | host =>
      have hstep : step s = hostStep (s.setTurns rest) := by simp [step, hts]
      cases ho : hostStep (s.setTurns rest) with
      | fault f => exact ⟨1, by simp, .inr (runSteps_stopped (.inl ⟨f, hstep.trans ho⟩))⟩
      | refused r => exact ⟨1, by simp, .inr (runSteps_stopped (.inr ⟨r, hstep.trans ho⟩))⟩
      | next t =>
        obtain ⟨hwait, hturns⟩ := hostStep_waited ho hp
        have hst : Waited s t := .trans ⟨_, _, _, rest⟩ hwait
        obtain ⟨k, hk, hend⟩ := ih (hst.phase.trans hp) hturns
        refine ⟨k + 1, Nat.succ_le_succ hk, ?_⟩
        rw [runSteps_of_step (hstep.trans ho)]
        refine hend.imp_left fun ⟨u, hu, htu, hover, hsub⟩ => ⟨u, hu, hst.trans htu, hover, ?_⟩
        exact List.subset_cons_of_subset _ hsub

/-! ### The engine's turn -/

/-- The performance of the latched word leaves the engine idle, or stops on an unwritten byte (R37, R39). -/
theorem performPend_ends (s : State) : (∃ t, performPend s = .next t ∧ t.phase = .idle) ∨ Stopped (performPend s) := by
  cases hd : decode s.pend with
  | error e => exact .inl ⟨_, performPend_of_error hd, rfl⟩
  | ok i =>
    rw [performPend_of_ok hd]
    exact (exec_stops i s).imp (fun ⟨t, h⟩ => ⟨t, h, (exec_ends h).phase⟩) fun h => .inl ⟨_, h⟩

/-- The step that ends the wait ends the command too: it is performed, or aborted by reset (R131). -/
theorem WaitOver.step_ends (h : WaitOver u) : (∃ t, step u = .next t ∧ t.phase = .idle) ∨ Stopped (step u) := by
  obtain ⟨rest, he⟩ | ⟨rest, hr⟩ := h
  · rw [step_of_engineMoves he]
    exact performPend_ends _
  · exact .inl ⟨_, step_reset hr, rfl⟩

/-- Settles O7: the wait ends within the plan (`wait_ends`), with the block's state as it was, and the step after it ends the command;
with no reset planned that step is the engine's. -/
theorem issuedCommandIsPerformed : Obligations.IssuedCommandIsPerformed := by
  refine ⟨fun s hp => ?_, fun s hp hreset => ?_⟩
  · obtain ⟨k, hk, ⟨u, hu, -, hover, -⟩ | hstop⟩ := wait_ends hp
    · refine ⟨k + 1, Nat.succ_le_succ hk, ?_⟩
      rw [runSteps_trans (n := 1) hu rfl]
      obtain ⟨t, ht, hidle⟩ | hstop := hover.step_ends
      · exact .inl ⟨t, runSteps_of_step ht, hidle⟩
      · exact .inr (runSteps_stopped hstop)
    · exact ⟨k, Nat.le_succ_of_le hk, .inr hstop⟩
  · obtain ⟨k, hk, ⟨u, hu, hwait, ⟨rest, he⟩ | ⟨rest, hr⟩, hsub⟩ | hstop⟩ := wait_ends hp
    · exact ⟨k, hk, .inl ⟨u, rest, hu, he, step_of_engineMoves he, hwait.eq_update⟩⟩
    · exact absurd (hsub (hr ▸ List.mem_cons_self)) hreset
    · exact ⟨k, hk, .inr hstop⟩

end Sys2Proof.Machine
end
